-- ==== Sys2Proof/Word.lean ====
section
/-! DEFINITION. Sys2Proof/Word.lean: the command word (R60, R61). -/

namespace Sys2Proof

/-- The 16-bit command word `cmd`, bit 0 the least significant (R60, R61). -/
abbrev Word := BitVec 16

end Sys2Proof
end

