-- ==== Sys2Proof/Syntax.lean ====
section
/-! DEFINITION. Sys2Proof/Syntax.lean: the commands, one constructor per row of spec/opcode_table.json, with the
operand the command word carries (`arg`, R62). The operand `val` and the result `res` travel beside the word
(R60) and stand in the port (Machine/State.lean). -/

namespace Sys2Proof

/-- The two agents that issue commands, each on its own port (R48). -/
inductive Agent where
  /-- The real-time context: state, sample rate, frames and the direct component commands. -/
  | audio
  /-- The control context: parameter reads and writes only. -/
  | control
deriving DecidableEq, Repr

/-- A parameter id, the `arg` of `GETP` and `SETP` (R16, R62, R65). -/
inductive ParamId where
  /-- Id 0. -/
  | gain
  /-- Id 1. -/
  | rate
  /-- Id 2. -/
  | depth
  /-- An unknown id: 3 to 255. Its behaviour is defined (R65). -/
  | unknown (id : Nat)
deriving DecidableEq, Repr

/-- A waveform kind code, the `arg` of `OSC.SETW` (R62, R66). -/
inductive WaveKind where
  /-- Code 0. -/
  | sine
  /-- Codes 1 to 255, reserved for future shape functions. -/
  | reserved (code : Nat)
deriving DecidableEq, Repr

/-- The seventeen commands of R63. -/
inductive Instr where
  /-- `ACT` (R130). -/
  | act
  /-- `DEACT` (R131). -/
  | deact
  /-- `SRATE val` (R132). -/
  | srate
  /-- `GETP arg -> res` (R128). -/
  | getp (id : ParamId)
  /-- `SETP arg, val` (R129). -/
  | setp (id : ParamId)
  /-- `FRAME val -> res` (R121). -/
  | frame
  /-- `OSC.SETSR val` (R81). -/
  | oscSetsr
  /-- `OSC.SETF val` (R82). -/
  | oscSetf
  /-- `OSC.SETA val` (R83). -/
  | oscSeta
  /-- `OSC.SETW arg` (R84). -/
  | oscSetw (kind : WaveKind)
  /-- `OSC.TICK` (R85). -/
  | oscTick
  /-- `OSC.GET -> res` (R86). -/
  | oscGet
  /-- `DL.SETSR val` (R101). -/
  | dlSetsr
  /-- `DL.WRITE val` (R102). -/
  | dlWrite
  /-- `DL.SETD val` (R103). -/
  | dlSetd
  /-- `DL.READ -> res` (R105). -/
  | dlRead
  /-- `DL.TICK` (R107). -/
  | dlTick
deriving DecidableEq, Repr

end Sys2Proof
end

