-- ==== Sys2Proof/WellFormed.lean ====
section
/-! DEFINITION. Sys2Proof/WellFormed.lean: which terms of `Instr` a command word can stand for: `arg` is eight bits,
and an id or a code that has a name is written by its name (R62, R65, R66). -/

namespace Sys2Proof

/-- An unknown id is one of 3 to 255 (R16, R65). -/
def ParamId.wf : ParamId → Bool
  | .gain => true
  | .rate => true
  | .depth => true
  | .unknown id => decide (3 ≤ id) && decide (id ≤ 255)

/-- A reserved waveform code is one of 1 to 255 (R66). -/
def WaveKind.wf : WaveKind → Bool
  | .sine => true
  | .reserved code => decide (1 ≤ code) && decide (code ≤ 255)

/-- A command a word of R61 can carry. -/
def Instr.wf : Instr → Bool
  | .act => true
  | .deact => true
  | .srate => true
  | .getp id => id.wf
  | .setp id => id.wf
  | .frame => true
  | .oscSetsr => true
  | .oscSetf => true
  | .oscSeta => true
  | .oscSetw kind => kind.wf
  | .oscTick => true
  | .oscGet => true
  | .dlSetsr => true
  | .dlWrite => true
  | .dlSetd => true
  | .dlRead => true
  | .dlTick => true

end Sys2Proof
end

