-- ==== Sys2Proof/Decode.lean ====
section
/-! DEFINITION. Sys2Proof/Decode.lean: the decoder of the 16-bit command word, total and rejecting by name (R61 to
R66), the encoder, and the port each command belongs to (R63, R71). -/

namespace Sys2Proof

/-! ## Fields of the command word (R61) -/

/-- `cmd[15:8]`, the field `arg`. -/
def argField (w : Word) : BitVec 8 := w.extractLsb' 8 8

/-- `cmd[7:0]`, the opcode. -/
def opcodeField (w : Word) : BitVec 8 := w.extractLsb' 0 8

/-- `cmd[7:6]`, the field `unit`. -/
def unitField (w : Word) : BitVec 2 := w.extractLsb' 6 2

/-- `cmd[5:4]`, the field `rsv`. -/
def rsvField (w : Word) : BitVec 2 := w.extractLsb' 4 2

/-- `cmd[3:0]`, the field `fn`. -/
def fnField (w : Word) : BitVec 4 := w.extractLsb' 0 4

/-! ## The argument (R62) -/

/-- The parameter id an `arg` names: `zext_8(arg)`, 0 gain, 1 rate, 2 depth (R16, R62). -/
def ParamId.ofArg (arg : BitVec 8) : ParamId :=
  match arg.toNat with
  | 0 => .gain
  | 1 => .rate
  | 2 => .depth
  | n => .unknown n

/-- The number of a parameter id (R16). -/
def ParamId.toNat : ParamId → Nat
  | .gain => 0
  | .rate => 1
  | .depth => 2
  | .unknown id => id

/-- The waveform kind an `arg` names: 0 is `SINE` (R62, R66). -/
def WaveKind.ofArg (arg : BitVec 8) : WaveKind :=
  match arg.toNat with
  | 0 => .sine
  | n => .reserved n

/-- The code of a waveform kind (R66). -/
def WaveKind.toNat : WaveKind → Nat
  | .sine => 0
  | .reserved code => code

/-! ## The decoder (R63, R64) -/

/-- Why a word is a reserved encoding: the four cases of R64. -/
inductive DecodeError where
  /-- `unit = 11`. -/
  | reservedUnit
  /-- `rsv != 00`. -/
  | reservedBits
  /-- A `fn` not assigned in R63 for its unit. -/
  | unassignedFn
  /-- A format Z opcode with `arg != 0x00`. -/
  | nonzeroArg
deriving DecidableEq, Repr

/-- Format Z: the whole word is fixed, `arg` must be `0x00` (R61). -/
def formatZ (arg : BitVec 8) (i : Instr) : Except DecodeError Instr :=
  if arg = 0x00#8 then .ok i else .error .nonzeroArg

/-- The case of R64 an unassigned opcode falls under. -/
def unassigned (w : Word) : DecodeError :=
  if unitField w = 0b11#2 then .reservedUnit
  else if rsvField w = 0b00#2 then .unassignedFn
  else .reservedBits

/-- The opcode map of R63; every other word is reserved (R64). -/
def decode (w : Word) : Except DecodeError Instr :=
  match opcodeField w with
  | 0x00#8 => formatZ (argField w) .act
  | 0x01#8 => formatZ (argField w) .deact
  | 0x02#8 => formatZ (argField w) .srate
  | 0x03#8 => .ok (.getp (ParamId.ofArg (argField w)))
  | 0x04#8 => .ok (.setp (ParamId.ofArg (argField w)))
  | 0x05#8 => formatZ (argField w) .frame
  | 0x40#8 => formatZ (argField w) .oscSetsr
  | 0x41#8 => formatZ (argField w) .oscSetf
  | 0x42#8 => formatZ (argField w) .oscSeta
  | 0x43#8 => .ok (.oscSetw (WaveKind.ofArg (argField w)))
  | 0x44#8 => formatZ (argField w) .oscTick
  | 0x45#8 => formatZ (argField w) .oscGet
  | 0x80#8 => formatZ (argField w) .dlSetsr
  | 0x81#8 => formatZ (argField w) .dlWrite
  | 0x82#8 => formatZ (argField w) .dlSetd
  | 0x83#8 => formatZ (argField w) .dlRead
  | 0x84#8 => formatZ (argField w) .dlTick
  | _ => .error (unassigned w)

/-- The instruction the decoder reads from an instruction of the opcode table whose bits are `w`: every command is
one 16-bit word (R68), bits 15..0 of `w`; a number with a higher bit set is no command. -/
def decodeTableWord (nbits w : Nat) : Option Instr :=
  let word := w % 2 ^ nbits
  if word < 2 ^ 16 then
    match decode (BitVec.ofNat 16 word) with
    | .ok i => some i
    | .error _ => none
  else none

/-! ## The encoder (R61, R63) -/

/-- A word of the layout of R61 from its four fields. -/
def wordOf (arg : Nat) (unit : BitVec 2) (fn : BitVec 4) : Word :=
  BitVec.ofNat 8 arg ++ (unit ++ (0b00#2 ++ fn))

/-- The word of a command: `unit` and `fn` of its row in R63, `arg` of its operand. -/
def encode : Instr → Word
  | .act => wordOf 0 0b00#2 0x0#4
  | .deact => wordOf 0 0b00#2 0x1#4
  | .srate => wordOf 0 0b00#2 0x2#4
  | .getp id => wordOf id.toNat 0b00#2 0x3#4
  | .setp id => wordOf id.toNat 0b00#2 0x4#4
  | .frame => wordOf 0 0b00#2 0x5#4
  | .oscSetsr => wordOf 0 0b01#2 0x0#4
  | .oscSetf => wordOf 0 0b01#2 0x1#4
  | .oscSeta => wordOf 0 0b01#2 0x2#4
  | .oscSetw kind => wordOf kind.toNat 0b01#2 0x3#4
  | .oscTick => wordOf 0 0b01#2 0x4#4
  | .oscGet => wordOf 0 0b01#2 0x5#4
  | .dlSetsr => wordOf 0 0b10#2 0x0#4
  | .dlWrite => wordOf 0 0b10#2 0x1#4
  | .dlSetd => wordOf 0 0b10#2 0x2#4
  | .dlRead => wordOf 0 0b10#2 0x3#4
  | .dlTick => wordOf 0 0b10#2 0x4#4

/-! ## Ports (R63 column "port", R71) -/

/-- The agent a command belongs to: `GETP` and `SETP` are CONTROL commands, every other an AUDIO command. -/
def Instr.port : Instr → Agent
  | .act => .audio
  | .deact => .audio
  | .srate => .audio
  | .getp _ => .control
  | .setp _ => .control
  | .frame => .audio
  | .oscSetsr => .audio
  | .oscSetf => .audio
  | .oscSeta => .audio
  | .oscSetw _ => .audio
  | .oscTick => .audio
  | .oscGet => .audio
  | .dlSetsr => .audio
  | .dlWrite => .audio
  | .dlSetd => .audio
  | .dlRead => .audio
  | .dlTick => .audio

end Sys2Proof
end

