-- ==== Sys2Proof/Config.lean ====
section
/-! DEFINITION. Sys2Proof/Config.lean: the OPEN parameters of R4: the number format, an argument of every definition of the
machine, and the three values fixed when the engine is created; and the free value of the model. -/

namespace Sys2Proof

/-- `WAVEFORMS` (R4): the closed set of waveform kinds; sine is the only implemented variant (R66, R80). -/
inductive Waveform where
  /-- `SINE`. -/
  | sine
deriving DecidableEq, Repr

/-- The number format `NUM` (R4, R5): a type of values with the operations of R6, "and no rule uses any other". Every
scalar of the machine is one value of it. A format is an argument of the machine and no part of its state. -/
structure NumFormat (N : Type) where
  /-- The constant `0`. -/
  zero : N
  /-- The constant `0.5`. -/
  half : N
  /-- The constant `1`. -/
  one : N
  /-- The constant `TWO_PI`. -/
  twoPi : N
  /-- `a + b`. -/
  add : N → N → N
  /-- `a - b`. -/
  sub : N → N → N
  /-- `a * b`. -/
  mul : N → N → N
  /-- `a / b`. -/
  div : N → N → N
  /-- The comparison `a > b`. -/
  gt : N → N → Bool
  /-- `sin(a)`. -/
  sin : N → N
  /-- `floor(a)`, giving an integer. -/
  floor : N → Int
  /-- `of_int(n)`. -/
  ofInt : Int → N
  /-- `ceil_to_int(a)`. -/
  ceilToInt : N → Int
  /-- `mod_cap(a, n)`. -/
  modCap : N → Nat → N
  /-- Which values are the same: for the check `osc.sampleRate = 0` of R85 (e) and the model's list of non-zero cells. -/
  decEq : DecidableEq N

/-- The OPEN values of R4. The state of a machine carries them as plain data, so that a statement about every state is
one about every value of them. -/
structure Config (N : Type) where
  /-- `SR0`: the sample rate the components are constructed with (R4, D4). -/
  sr0 : N
  /-- `MAX_DELAY_SECONDS`: the second argument of the DelayLine constructor (R4, D5). -/
  maxDelaySeconds : N
  /-- `BASE_OFFSET`: the constant added to the oscillator sample in frame step S2 (R4, D6). -/
  baseOffset : N
deriving DecidableEq, Repr

/-- Configuration T of 95_test_vectors.md, the one the machine `State.reset` is created with.
DESIGN CHOICE (log entry 4): the parameters are OPEN; no statement rests on these numbers. -/
def Config.vectors : Config ℚ :=
  { sr0 := 4, maxDelaySeconds := 2, baseOffset := 1 }

/-- `TWO_PI` in the format `rationalFormat`: a rational number near 2π, as in every format without irrational numbers.
DESIGN CHOICE (log entry 2): no statement rests on this number. -/
def Config.twoPi : ℚ := 710 / 113

/-- The free value of the model: the sine in the format `rationalFormat` where its value is not a rational number (R6, D2).
It has no body; `rationalSine` (Machine/Num.lean) applies it only there and only within the limits the spec puts on the
sine (log entry 3). -/
opaque Config.sineFree : ℚ → ℚ

end Sys2Proof
end

