-- ==== Sys2Proof/Machine/Num.lean ====
section
/-! DEFINITION. Sys2Proof/Machine/Num.lean: the exact formats (R5, R6), the format of the plain-data state, and the
formulas of the block over any format (R7, R80, R112). -/

namespace Sys2Proof.Machine

/-! ## Exact formats (R5, R6) -/

/-- The format in which every operation of R6 is the mathematical one, over an ordered field `N` with a floor. Over the
real numbers, with `2π` and the sine, it is the reference instance of R5. -/
def exactFormat {N : Type} [Field N] [LinearOrder N] [IsStrictOrderedRing N] [FloorRing N]
    (twoPi : N) (sin : N → N) : NumFormat N where
  zero := 0
  half := 1 / 2
  one := 1
  twoPi := twoPi
  add a b := a + b
  sub a b := a - b
  mul a b := a * b
  div a b := a / b
  gt a b := decide (b < a)
  sin := sin
  floor a := ⌊a⌋
  ofInt n := (n : N)
  ceilToInt a := ⌈a⌉
  modCap a n := a - (n : N) * (⌊a / (n : N)⌋ : N)
  decEq := inferInstance

/-- The sine of the fractions of a turn whose sine is itself rational: the multiples of a quarter turn and the odd
twelfths 1, 5, 7 and 11 (93_implementation_defined.md section 3, and the signs of the other quadrants). -/
def exactSine {N : Type} [Field N] [DecidableEq N] (u : N) : Option N :=
  if u = 0 ∨ u = 1/2 then some 0
  else if u = 1/4 then some 1
  else if u = 3/4 then some (-1)
  else if u = 1/12 ∨ u = 5/12 then some (1/2)
  else if u = 7/12 ∨ u = 11/12 then some (-1/2)
  else none

/-- What the derived rules use of `TWO_PI` and `sin` (93_implementation_defined.md section 3, D2): the period (R88, R89),
the range (R87), the slope of at most 1 (R90) and the values of `exactSine`. -/
def SineFacts {N : Type} [Field N] [LinearOrder N] (twoPi : N) (sin : N → N) : Prop :=
  0 < twoPi ∧
  (∀ a, sin (a + twoPi) = sin a) ∧
  (∀ a, |sin a| ≤ 1) ∧
  (∀ a b, |sin a - sin b| ≤ |a - b|) ∧
  (∀ u v, exactSine u = some v → sin (twoPi * u) = v)

/-! ## The format of the plain-data state (log entries 1 to 3) -/

/-- Whether the free value keeps the spec's limits: free as well, and a proof of it where it says so. -/
opaque Config.sineFreeLawful : Option (PLift (SineFacts Config.twoPi Config.sineFree))

/-- A function within the limits: straight segments between the values of `exactSine`, over the distance `r` from the
nearest crest, in turns. It stands in where the free value is not known to keep them. -/
def segmentSine (a : ℚ) : ℚ :=
  let t := a / Config.twoPi - 1/4
  let r := |t - (round t : ℚ)|
  max (min (1 - 3 * r) (3/2 - 6 * r)) (1/2 - 3 * r)

/-- Some function within the limits of `SineFacts`, no one knows which. -/
def freeSine (a : ℚ) : ℚ :=
  match Config.sineFreeLawful with
  | some _ => Config.sineFree a
  | none => segmentSine a

/-- `sin(a)` in the format `rationalFormat`: exact wherever its value is rational, elsewhere a free value within the limits
the spec puts on the sine (log entry 3). -/
def rationalSine (a : ℚ) : ℚ :=
  match exactSine (Int.fract (a / Config.twoPi)) with
  | some v => v
  | none => freeSine a

/-- The format `State` holds its numbers in. -/
def rationalFormat : NumFormat ℚ := exactFormat Config.twoPi rationalSine

/-! ## Derived operations and formulas, over any format -/

variable {N : Type} (F : NumFormat N)

/-- `a = 0`. -/
def isZero (a : N) : Bool := @decide (a = F.zero) (F.decEq a F.zero)

/-- `frac_part(a) = a - floor(a)` (R6). -/
def fracPart (a : N) : N := F.sub a (F.ofInt (F.floor a))

/-- The shape function: `shape(SINE, p) = sin(p)` (R80). -/
def shape : Waveform → N → N
  | .sine, p => F.sin p

/-- The phase increment `((TWO_PI * frequency) / sampleRate)` (R7, R85 part T2). `oscAdvance` (Machine/Oscillator.lean)
refuses a sample rate of `0`. -/
def phaseIncrement (frequency sampleRate : N) : N := F.div (F.mul F.twoPi frequency) sampleRate

/-- The linear interpolation `(((1 - f) * a) + (f * b))` (R7, R105). -/
def interpolate (f a b : N) : N := F.add (F.mul (F.sub F.one f) a) (F.mul f b)

/-- The mixer `(0.5 * ((x * (1 - g)) + (wet * g)))` (R7, R126). -/
def mix (g x wet : N) : N := F.mul F.half (F.add (F.mul x (F.sub F.one g)) (F.mul wet g))

/-- The capacity law: `ceil_to_int(rate * MAX_DELAY_SECONDS)` (R112). -/
def capacityFor (c : Config N) (rate : N) : Int := F.ceilToInt (F.mul rate c.maxDelaySeconds)

/-- A configuration of this hardware (R4): `SR0 > 0`, and a buffer of at least one cell (R100). -/
abbrev ConfigValid (c : Config N) : Prop := F.gt c.sr0 F.zero = true ∧ 1 ≤ capacityFor F c c.sr0

end Sys2Proof.Machine
end

