-- ==== Sys2Proof/Machine/State.lean ====
section
/-! DEFINITION. Sys2Proof/Machine/State.lean: the state of the block (R10) with the two ports and the order in which
the agents act, over any number format; the reset state (R22), and the reasons a step can stop (R157). -/

namespace Sys2Proof.Machine

/-- The cells of the delay buffer: pairs of a cell index and its sample, indices strictly rising, no entry `0`.
A cell that is not listed holds `0`, what the zero-fill of R100 leaves. A cell holds one `NUM`, never bytes (R41). -/
abbrev Memory (N : Type) := List (Nat × N)

/-- The canonical form of `Memory`: indices strictly rising, no listed cell equal to what an unlisted one reads as. -/
abbrev Memory.wf {N : Type} (F : NumFormat N) (m : Memory N) : Prop :=
  m.Pairwise (fun a b => a.1 < b.1) ∧ ∀ c ∈ m, isZero F c.2 = false

/-- The six Oscillator registers (R11). -/
structure Oscillator (N : Type) where
  /-- `osc.sampleRate`. -/
  sampleRate : N
  /-- `osc.frequency`. -/
  frequency : N
  /-- `osc.amplitude`. -/
  amplitude : N
  /-- `osc.phase`. -/
  phase : N
  /-- `osc.waveform`. -/
  waveform : Waveform
  /-- `osc.sample`. -/
  sample : N
deriving DecidableEq, Repr

/-- The three DelayLine registers (R13) and the delay buffer (R21). -/
structure DelayLine (N : Type) where
  /-- `dl.capacity`. -/
  capacity : Nat
  /-- `dl.writeIndex`. -/
  writeIndex : Nat
  /-- `dl.readDistance`. -/
  readDistance : N
  /-- `dl.buffer`. -/
  buffer : Memory N
deriving DecidableEq, Repr

/-- The frame sequencer's values (R14): `Sk` means that micro-step `Sk` of R121 is the next to execute. -/
inductive FStep where
  /-- Between frames. -/
  | idle
  /-- Next: the write. -/
  | s1
  /-- Next: the modulated distance. -/
  | s2
  /-- Next: the read. -/
  | s3
  /-- Next: the mixer. -/
  | s4
  /-- Next: the oscillator sample. -/
  | s5
  /-- Next: the phase advance. -/
  | s6
  /-- Next: the delay-line tick. -/
  | s7
deriving DecidableEq, Repr

/-- The parameter registers (R16), the state flag (R17), the sequencer (R14) and its temporaries (R18). -/
structure Engine (N : Type) where
  /-- `eng.gain`. -/
  gain : N
  /-- `eng.rate`. -/
  rate : N
  /-- `eng.depth`. -/
  depth : N
  /-- `eng.active`: `false` inactive, `true` active. -/
  active : Bool
  /-- `eng.fstep`. -/
  fstep : FStep
  /-- `eng.x`: without meaning while `fstep` is `idle` (R18; what it holds there is log entry 15). -/
  x : N
  /-- `eng.wet`: without meaning while `fstep` is `idle` (R18; what it holds there is log entry 15). -/
  wet : N
deriving DecidableEq, Repr

/-- One command transaction (R60): the word and the operand that travels beside it. A command that takes no value
ignores `val` (log entry 5). -/
structure Txn (N : Type) where
  /-- The command word `cmd`. -/
  word : Word
  /-- The operand `val`. -/
  val : N
deriving DecidableEq, Repr

/-- One command port (R48, R60): what its agent will still issue, the operand of the command in progress, and
every result delivered so far (log entry 5). -/
structure Port (N : Type) where
  /-- Transactions the agent will issue, the next one first. -/
  pending : List (Txn N)
  /-- The operand `val` of the command taken last. -/
  val : N
  /-- The results `res` delivered on the port, oldest first. -/
  results : List N
deriving DecidableEq, Repr

/-- The state of the block and of its two ports, its numbers values of `N`. Where no `N` is given it is ℚ, the carrier of
`rationalFormat`: `State` alone is the state whose values can be compared and written out (log entry 1). -/
structure State (N : Type := ℚ) where
  /-- The configuration the engine was created with (R4); no command changes it. -/
  config : Config N
  /-- The Oscillator (R11). -/
  osc : Oscillator N
  /-- The DelayLine (R13, R21). -/
  dl : DelayLine N
  /-- The engine's own state (R14, R16 to R18). -/
  eng : Engine N
  /-- The AUDIO port. -/
  audio : Port N
  /-- The CONTROL port. -/
  control : Port N
  /-- Which agent each coming step belongs to, the next one first: the interleaving R49 leaves open (log entry 6). -/
  schedule : List Agent
deriving DecidableEq, Repr

/-- The hardware's faults: none. "The set of exception causes is empty; a model's fault type for hardware events has
no constructor" (R150). -/
inductive Fault
deriving DecidableEq, Repr

/-- The `refuse` verdicts of R157, by the spec's own names: each marks a command the spec gives no meaning.
All are safe: a run that meets one has no next state, so nothing can be claimed of what follows. -/
inductive Refusal where
  /-- Raised by an arm of `exec` that has no meaning yet, by its mnemonic. Safe. No arm raises it. -/
  | notModelled (mnemonic : String)
  /-- Raised by `FRAME` while `eng.active = 0` (R122). Safe. -/
  | frameWhileInactive
  /-- Raised by `SRATE` and `DL.SETSR` while `eng.active = 1` (R101, R132). Safe. -/
  | reconfigureWhileActive
  /-- Raised by `SRATE`, `DL.SETSR` and the creation of the engine for a rate whose capacity is below 1
  (R100, R101, R132). Safe. -/
  | zeroCapacity
  /-- Raised by `OSC.TICK` and frame micro-step S6 while `osc.sampleRate = 0` (R85, R127). Safe. -/
  | divideByZero
  /-- Raised by `OSC.SETW` for a kind other than `SINE` (R66, R84). Safe. -/
  | reservedWaveform
  /-- Raised when a command is taken from a port and its word is a reserved encoding (R64). Safe. -/
  | reservedEncoding
  /-- Raised when a command is taken from the other agent's port (R71). Safe. -/
  | wrongPort
deriving DecidableEq, Repr

/-- A port on which nothing has been issued. -/
def Port.quiet {N : Type} (F : NumFormat N) : Port N := { pending := [], val := F.zero, results := [] }

/-- The reset state of R22 for the configuration `c`; the values the source omits are the spec's D7 to D12
(log entry 11). `eng.x`, `eng.wet` and the ports' operands have no value in the spec: `0` (log entry 7). -/
def State.resetWith {N : Type} (F : NumFormat N) (c : Config N) : State N :=
  { config := c
    osc :=
      { sampleRate := c.sr0, frequency := F.half, amplitude := F.half, phase := F.zero,
        waveform := .sine, sample := F.zero }
    dl :=
      { capacity := (capacityFor F c c.sr0).toNat, writeIndex := 0, readDistance := F.zero, buffer := [] }
    eng :=
      { gain := F.one, rate := F.half, depth := F.half, active := false, fstep := .idle,
        x := F.zero, wet := F.zero }
    audio := Port.quiet F
    control := Port.quiet F
    schedule := [] }

/-- The machine right after reset, created with configuration T of 95_test_vectors.md (log entry 4). -/
def State.reset : State := State.resetWith rationalFormat Config.vectors

end Sys2Proof.Machine
end

