-- ==== Sys2Proof/Machine/Ops.lean ====
section
/-! DEFINITION. Sys2Proof/Machine/Ops.lean: the named operations over the buffer, the registers and the ports that
the meanings share, over any number format. The block takes no exception and returns from none (R150, R154, R155), so
there is no operation for either. -/

namespace Sys2Proof.Machine

variable {N : Type}

/-- The outcome of one step of the block. -/
abbrev ResultOn (N : Type) := Host.Outcome (State N) Fault Refusal

/-- The outcome of one step on the plain-data state. -/
abbrev Result := Host.Outcome State Fault Refusal

/-- First `o`, then `f` from the state `o` reached. -/
def andThen (o : ResultOn N) (f : State N → ResultOn N) : ResultOn N :=
  match o with
  | .next s => f s
  | .fault r => .fault r
  | .refused r => .refused r

/-! ## The delay buffer (R8, R40) -/

/-- The sample a cell holds; an unlisted cell holds `0`. -/
def Memory.read (F : NumFormat N) : Memory N → Nat → N
  | [], _ => F.zero
  | (j, w) :: rest, i => if j = i then w else Memory.read F rest i

/-- Store a sample in one cell, keeping the canonical form. -/
def Memory.write (F : NumFormat N) : Memory N → Nat → N → Memory N
  | [], i, v => if isZero F v = true then [] else [(i, v)]
  | (j, w) :: rest, i, v =>
    if i < j then (if isZero F v = true then (j, w) :: rest else (i, v) :: (j, w) :: rest)
    else if i = j then (if isZero F v = true then rest else (i, v) :: rest)
    else (j, w) :: Memory.write F rest i v

/-- The cell an integer index names: every index is reduced modulo `dl.capacity` (R40). -/
def DelayLine.cell (d : DelayLine N) (addr : Int) : Nat := (addr % (d.capacity : Int)).toNat

/-- `MemRead(addr, 1)` (R8). -/
def DelayLine.memRead (F : NumFormat N) (d : DelayLine N) (addr : Int) : N :=
  Memory.read F d.buffer (d.cell addr)

/-- `MemWrite(addr, 1, v)` (R8). -/
def DelayLine.memWrite (F : NumFormat N) (d : DelayLine N) (addr : Int) (v : N) : DelayLine N :=
  { d with buffer := Memory.write F d.buffer (d.cell addr) v }

/-- The write head's store: `MemWrite(dl.writeIndex, 1, v)` (R102, R123). -/
def DelayLine.store (F : NumFormat N) (d : DelayLine N) (v : N) : DelayLine N := d.memWrite F d.writeIndex v

/-- Give the buffer `n` cells of `0` and put the write index to `0`; the read distance stays (R101, D15). -/
def DelayLine.refill (d : DelayLine N) (n : Nat) : DelayLine N :=
  { d with capacity := n, writeIndex := 0, buffer := [] }

/-- Advance the write index by one position, modulo the capacity (R107). -/
def DelayLine.advance (d : DelayLine N) : DelayLine N :=
  { d with writeIndex := (d.writeIndex + 1) % d.capacity }

/-! ## Parameter registers (R16, R128, R129) -/

/-- The value of a parameter; an unknown id reads as `0` (R65, R128). -/
def readParam (F : NumFormat N) (id : ParamId) (s : State N) : N :=
  match id with
  | .gain => s.eng.gain
  | .rate => s.eng.rate
  | .depth => s.eng.depth
  | .unknown _ => F.zero

/-- Store a parameter and forward it (R129, one atomic step); an unknown id changes nothing (R65). -/
def writeParam (id : ParamId) (v : N) (s : State N) : State N :=
  match id with
  | .gain => { s with eng.gain := v }
  | .rate => { s with eng.rate := v, osc.frequency := v }
  | .depth => { s with eng.depth := v, osc.amplitude := v }
  | .unknown _ => s

/-! ## The sequencer (R14) -/

/-- `eng.fstep <- k`. -/
def State.setFStep (s : State N) (k : FStep) : State N := { s with eng.fstep := k }

/-! ## Ports (R60) -/

/-- Deliver a result on a port. -/
def Port.deliver (p : Port N) (res : N) : Port N := { p with results := p.results ++ [res] }

/-- Take the transaction `t` from a port, leaving `rest`: its operand stands on the port while it runs. -/
def Port.take (p : Port N) (t : Txn N) (rest : List (Txn N)) : Port N := { p with pending := rest, val := t.val }

/-- Deliver a result on the AUDIO port. -/
def State.deliverAudio (s : State N) (res : N) : State N := { s with audio := s.audio.deliver res }

/-- Deliver a result on the CONTROL port. -/
def State.deliverControl (s : State N) (res : N) : State N := { s with control := s.control.deliver res }

/-- The port of an agent. -/
def State.port (s : State N) : Agent → Port N
  | .audio => s.audio
  | .control => s.control

/-- Replace the port of an agent. -/
def State.setPort (s : State N) (a : Agent) (p : Port N) : State N :=
  match a with
  | .audio => { s with audio := p }
  | .control => { s with control := p }

/-! ## Reconfiguration and creation (R100, R101, R132) -/

/-- The part `SRATE` and `DL.SETSR` share: the state check first (R153), then the capacity check, then the refill. -/
def reconfigure (F : NumFormat N) (rate : N) (s : State N) : ResultOn N :=
  if s.eng.active = true then .refused .reconfigureWhileActive
  else if capacityFor F s.config rate < 1 then .refused .zeroCapacity
  else .next { s with dl := s.dl.refill (capacityFor F s.config rate).toNat }

/-- Reset: the creation of the engine with a configuration (R100, R170). One without a cell is refused. -/
def construct (F : NumFormat N) (c : Config N) : ResultOn N :=
  if capacityFor F c c.sr0 < 1 then .refused .zeroCapacity
  else .next (State.resetWith F c)

end Sys2Proof.Machine
end

