-- ==== Sys2Proof/Machine/Operands.lean ====
section
/-! DEFINITION. Sys2Proof/Machine/Operands.lean: the operand forms: the operand `val` of each port (R60, R62) and the
block's one addressing mode, the fractional read position (R104). -/

namespace Sys2Proof.Machine

variable {N : Type}

/-- The operand `val` of the AUDIO command in progress, used as it arrives (R62). -/
def audioOperand (s : State N) : N := s.audio.val

/-- The operand `val` of the CONTROL command in progress. -/
def controlOperand (s : State N) : N := s.control.val

/-- `p := mod_cap(of_int(w) - d, n)` (R104). -/
def DelayLine.readPosition (F : NumFormat N) (d : DelayLine N) : N :=
  F.modCap (F.sub (F.ofInt d.writeIndex) d.readDistance) d.capacity

/-- `i := floor(p)` (R104): the older of the two cells. -/
def DelayLine.olderTap (F : NumFormat N) (d : DelayLine N) : Int := F.floor (d.readPosition F)

/-- `f := p - of_int(i)` (R104). -/
def DelayLine.readFraction (F : NumFormat N) (d : DelayLine N) : N := fracPart F (d.readPosition F)

/-- `i1 := (i + 1) mod n` (R104): the newer of the two cells. -/
def DelayLine.newerTap (F : NumFormat N) (d : DelayLine N) : Int := (d.olderTap F + 1) % (d.capacity : Int)

/-- The interpolated sample at the read position (R105). -/
def DelayLine.readSample (F : NumFormat N) (d : DelayLine N) : N :=
  interpolate F (d.readFraction F) (d.memRead F (d.olderTap F)) (d.memRead F (d.newerTap F))

end Sys2Proof.Machine
end

