-- ==== Sys2Proof/Machine/Flags.lean ====
section
/-! DEFINITION. Sys2Proof/Machine/Flags.lean: the block has no flag, condition code or status bit (R19). What stands
here is the one data condition of the block, the phase-wrap test (R139). -/

namespace Sys2Proof.Machine

/-- The single conditional subtraction of R85 part T2 (never a loop, never a modulo: D17). The test `p > TWO_PI` is
strict: a phase equal to `TWO_PI` is kept (C1). -/
def wrapOnce {N : Type} (F : NumFormat N) (p : N) : N :=
  if F.gt p F.twoPi = true then F.sub p F.twoPi else p

end Sys2Proof.Machine
end

