-- ==== Sys2Proof/Machine/DelayLine.lean ====
section
/-! DEFINITION. Sys2Proof/Machine/DelayLine.lean: the meanings of the `DL.*` commands (R100 to R107), over any number
format, and on the plain-data state. -/

namespace Sys2Proof.Machine

variable {N : Type}

/-- `DL.SETSR val` (R101). -/
def dlSetsrOn (F : NumFormat N) (s : State N) : ResultOn N := reconfigure F (audioOperand s) s

/-- `DL.WRITE val` (R102). -/
def dlWriteOn (F : NumFormat N) (s : State N) : ResultOn N :=
  .next { s with dl := s.dl.store F (audioOperand s) }

/-- `DL.SETD val` (R103): stored unchecked. -/
def dlSetdOn (s : State N) : ResultOn N := .next { s with dl.readDistance := audioOperand s }

/-- `DL.READ -> res` (R105). -/
def dlReadOn (F : NumFormat N) (s : State N) : ResultOn N := .next (s.deliverAudio (s.dl.readSample F))

/-- `DL.TICK` (R107). -/
def dlTickOn (s : State N) : ResultOn N := .next { s with dl := s.dl.advance }

/-! ## On the plain-data state -/

/-- `DL.SETSR val` (R101). -/
def execDlSetsr (s : State) : Result := dlSetsrOn rationalFormat s

/-- `DL.WRITE val` (R102). -/
def execDlWrite (s : State) : Result := dlWriteOn rationalFormat s

/-- `DL.SETD val` (R103). -/
def execDlSetd (s : State) : Result := dlSetdOn s

/-- `DL.READ -> res` (R105). -/
def execDlRead (s : State) : Result := dlReadOn rationalFormat s

/-- `DL.TICK` (R107). -/
def execDlTick (s : State) : Result := dlTickOn s

end Sys2Proof.Machine
end

