-- ==== Sys2Proof/Machine/Oscillator.lean ====
section
/-! DEFINITION. Sys2Proof/Machine/Oscillator.lean: the meanings of the `OSC.*` commands (R80 to R86), over any number
format, and on the plain-data state. -/

namespace Sys2Proof.Machine

variable {N : Type}

/-- Part T1 of R85: `osc.sample <- osc.amplitude * shape(osc.waveform, osc.phase)`. -/
def Oscillator.resample (F : NumFormat N) (o : Oscillator N) : Oscillator N :=
  { o with sample := F.mul o.amplitude (shape F o.waveform o.phase) }

/-- Part T2 of R85 on the registers: advance the phase by the increment, wrap once. -/
def Oscillator.turn (F : NumFormat N) (o : Oscillator N) : Oscillator N :=
  { o with phase := wrapOnce F (F.add o.phase (phaseIncrement F o.frequency o.sampleRate)) }

/-- Part T1 of R85 (frame micro-step S5). -/
def oscSample (F : NumFormat N) (s : State N) : State N := { s with osc := s.osc.resample F }

/-- Part T2 of R85 (frame micro-step S6): refused where the division has no value (corner case e). -/
def oscAdvance (F : NumFormat N) (s : State N) : ResultOn N :=
  if isZero F s.osc.sampleRate = true then .refused .divideByZero
  else .next { s with osc := s.osc.turn F }

/-- `OSC.SETSR val` (R81). -/
def oscSetsrOn (s : State N) : ResultOn N := .next { s with osc.sampleRate := audioOperand s }

/-- `OSC.SETF val` (R82). -/
def oscSetfOn (s : State N) : ResultOn N := .next { s with osc.frequency := audioOperand s }

/-- `OSC.SETA val` (R83). -/
def oscSetaOn (s : State N) : ResultOn N := .next { s with osc.amplitude := audioOperand s }

/-- `OSC.SETW arg` (R84): a kind other than `SINE` has no defined behaviour and is refused. -/
def oscSetwOn (kind : WaveKind) (s : State N) : ResultOn N :=
  match kind with
  | .sine => .next { s with osc.waveform := .sine }
  | .reserved _ => .refused .reservedWaveform

/-- `OSC.TICK` (R85): T1, then T2. -/
def oscTickOn (F : NumFormat N) (s : State N) : ResultOn N := oscAdvance F (oscSample F s)

/-- `OSC.GET -> res` (R86). -/
def oscGetOn (s : State N) : ResultOn N := .next (s.deliverAudio s.osc.sample)

/-! ## On the plain-data state -/

/-- `OSC.SETSR val` (R81). -/
def execOscSetsr (s : State) : Result := oscSetsrOn s

/-- `OSC.SETF val` (R82). -/
def execOscSetf (s : State) : Result := oscSetfOn s

/-- `OSC.SETA val` (R83). -/
def execOscSeta (s : State) : Result := oscSetaOn s

/-- `OSC.SETW arg` (R84). -/
def execOscSetw (kind : WaveKind) (s : State) : Result := oscSetwOn kind s

/-- `OSC.TICK` (R85). -/
def execOscTick (s : State) : Result := oscTickOn rationalFormat s

/-- `OSC.GET -> res` (R86). -/
def execOscGet (s : State) : Result := oscGetOn s

end Sys2Proof.Machine
end

