-- ==== Sys2Proof/Machine/Engine.lean ====
section
/-! DEFINITION. Sys2Proof/Machine/Engine.lean: the meanings of the ChorusEngine commands (R120 to R132), over any number
format, and on the plain-data state. `FRAME` is the one command that is not one atomic step (R49): its meaning does the
next of its parts, the acceptance or a micro-step, and the step function runs it again until the sequencer is idle. -/

namespace Sys2Proof.Machine

variable {N : Type}

/-- `ACT` (R130). -/
def actOn (s : State N) : ResultOn N := .next { s with eng.active := true }

/-- `DEACT` (R131). -/
def deactOn (s : State N) : ResultOn N := .next { s with eng.active := false }

/-- `SRATE val` (R132): as `DL.SETSR val`, then as `OSC.SETSR val`, one atomic step. -/
def srateOn (F : NumFormat N) (s : State N) : ResultOn N :=
  andThen (reconfigure F (audioOperand s) s) fun t =>
    .next { t with osc.sampleRate := audioOperand s }

/-- `GETP arg -> res` (R128). -/
def getpOn (F : NumFormat N) (id : ParamId) (s : State N) : ResultOn N :=
  .next (s.deliverControl (readParam F id s))

/-- `SETP arg, val` (R129). -/
def setpOn (id : ParamId) (s : State N) : ResultOn N := .next (writeParam id (controlOperand s) s)

/-! ## FRAME (R121) -/

/-- Acceptance (R121, R122): only in the active state. -/
def frameAccept (s : State N) : ResultOn N :=
  if s.eng.active = true then .next (s.setFStep .s1) else .refused .frameWhileInactive

/-- S1 (R123): latch the input sample, write it at the write head. -/
def frameWrite (F : NumFormat N) (s : State N) : State N :=
  { s with eng.x := audioOperand s, dl := s.dl.store F (audioOperand s) }

/-- S2 (R124): `dl.readDistance <- osc.sample + BASE_OFFSET`. -/
def frameDistance (F : NumFormat N) (s : State N) : State N :=
  { s with dl.readDistance := F.add s.osc.sample s.config.baseOffset }

/-- S3 (R125): `eng.wet <- result of DL.READ`. -/
def frameRead (F : NumFormat N) (s : State N) : State N := { s with eng.wet := s.dl.readSample F }

/-- S4 (R126): the mixer; `eng.gain` is read once, the result is delivered here. -/
def frameMix (F : NumFormat N) (s : State N) : State N :=
  s.deliverAudio (mix F s.eng.gain s.eng.x s.eng.wet)

/-- S7 (R127): as `DL.TICK`. -/
def frameTick (s : State N) : State N := { s with dl := s.dl.advance }

/-- `FRAME val -> res` (R121): the part the sequencer stands at. S5 and S6 are parts T1 and T2 of `OSC.TICK`
(R127). DESIGN CHOICE (log entry 15): S7 leaves `eng.x` and `eng.wet` as they are; R18 gives them no meaning between
frames. -/
def frameOn (F : NumFormat N) (s : State N) : ResultOn N :=
  match s.eng.fstep with
  | .idle => frameAccept s
  | .s1 => .next ((frameWrite F s).setFStep .s2)
  | .s2 => .next ((frameDistance F s).setFStep .s3)
  | .s3 => .next ((frameRead F s).setFStep .s4)
  | .s4 => .next ((frameMix F s).setFStep .s5)
  | .s5 => .next ((oscSample F s).setFStep .s6)
  | .s6 => andThen (oscAdvance F s) fun t => .next (t.setFStep .s7)
  | .s7 => .next ((frameTick s).setFStep .idle)

/-! ## On the plain-data state -/

/-- `ACT` (R130). -/
def execAct (s : State) : Result := actOn s

/-- `DEACT` (R131). -/
def execDeact (s : State) : Result := deactOn s

/-- `SRATE val` (R132). -/
def execSrate (s : State) : Result := srateOn rationalFormat s

/-- `GETP arg -> res` (R128). -/
def execGetp (id : ParamId) (s : State) : Result := getpOn rationalFormat id s

/-- `SETP arg, val` (R129). -/
def execSetp (id : ParamId) (s : State) : Result := setpOn id s

/-- `FRAME val -> res` (R121). -/
def execFrame (s : State) : Result := frameOn rationalFormat s

end Sys2Proof.Machine
end

