-- ==== Sys2Proof/Machine/Dispatch.lean ====
section
/-! DEFINITION. Sys2Proof/Machine/Dispatch.lean: the meaning of every command, one arm per constructor of `Instr`. -/

namespace Sys2Proof.Machine

def exec (i : Instr) (s : State) : Host.Outcome State Fault Refusal :=
  match i with
  | .act => Sys2Proof.Machine.execAct s
  | .deact => Sys2Proof.Machine.execDeact s
  | .srate => Sys2Proof.Machine.execSrate s
  | .getp id => Sys2Proof.Machine.execGetp id s
  | .setp id => Sys2Proof.Machine.execSetp id s
  | .frame => Sys2Proof.Machine.execFrame s
  | .oscSetsr => Sys2Proof.Machine.execOscSetsr s
  | .oscSetf => Sys2Proof.Machine.execOscSetf s
  | .oscSeta => Sys2Proof.Machine.execOscSeta s
  | .oscSetw kind => Sys2Proof.Machine.execOscSetw kind s
  | .oscTick => Sys2Proof.Machine.execOscTick s
  | .oscGet => Sys2Proof.Machine.execOscGet s
  | .dlSetsr => Sys2Proof.Machine.execDlSetsr s
  | .dlWrite => Sys2Proof.Machine.execDlWrite s
  | .dlSetd => Sys2Proof.Machine.execDlSetd s
  | .dlRead => Sys2Proof.Machine.execDlRead s
  | .dlTick => Sys2Proof.Machine.execDlTick s

end Sys2Proof.Machine
end

