-- ==== Sys2Proof/Machine/Formats.lean ====
section
/-! DEFINITION. Sys2Proof/Machine/Formats.lean: the meaning of every command over any number format, the OPEN parameter of
R4. `exec` (Machine/Dispatch.lean) is this at the format `rationalFormat`. -/

namespace Sys2Proof.Machine

/-- The meaning of a command in the format `F`. -/
def execOn {N : Type} (F : NumFormat N) (i : Instr) (s : State N) : ResultOn N :=
  match i with
  | .act => actOn s
  | .deact => deactOn s
  | .srate => srateOn F s
  | .getp id => getpOn F id s
  | .setp id => setpOn id s
  | .frame => frameOn F s
  | .oscSetsr => oscSetsrOn s
  | .oscSetf => oscSetfOn s
  | .oscSeta => oscSetaOn s
  | .oscSetw kind => oscSetwOn kind s
  | .oscTick => oscTickOn F s
  | .oscGet => oscGetOn s
  | .dlSetsr => dlSetsrOn F s
  | .dlWrite => dlWriteOn F s
  | .dlSetd => dlSetdOn s
  | .dlRead => dlReadOn F s
  | .dlTick => dlTickOn s

end Sys2Proof.Machine
end

