-- ==== Sys2Proof/Machine/Fetch.lean ====
section
/-! DEFINITION. Sys2Proof/Machine/Fetch.lean: how a command reaches its meaning. The block fetches no instructions: an
agent presents each command on its port (R14, R55, R60), and a step belongs to one agent (R49). The meanings are the
argument `ex`: `exec` on the plain-data state, `execOn F` over any number format. -/

namespace Sys2Proof.Machine

variable {N : Type} (ex : Instr → State N → ResultOn N)

/-- Run the command of the word `w`, taken from the port of agent `a`: a reserved encoding (R64) and a command of
the other port (R71) are refused. -/
def issue (a : Agent) (w : Word) (s : State N) : ResultOn N :=
  match decode w with
  | .error _ => .refused .reservedEncoding
  | .ok i => if i.port = a then ex i s else .refused .wrongPort

/-- The next command of agent `a`, if it has one to issue; otherwise nothing happens (R171). -/
def issueNext (a : Agent) (s : State N) : ResultOn N :=
  match (s.port a).pending with
  | [] => .next s
  | t :: rest => issue ex a t.word (s.setPort a ((s.port a).take t rest))

/-- One step of agent `a` (R49): the next micro-step of the frame in progress for AUDIO, which is sequential
(R48), else its next command; the next command for CONTROL, also while a frame is in progress. -/
def agentStep (a : Agent) (s : State N) : ResultOn N :=
  match a with
  | .control => issueNext ex .control s
  | .audio => if s.eng.fstep = .idle then issueNext ex .audio s else ex .frame s

/-- Neither agent acts any more: a frame in progress runs on to its end (R57, R183), else the block waits for commands
(R171). -/
def quietStep (s : State N) : ResultOn N :=
  if s.eng.fstep = .idle then .next s else ex .frame s

/-- One atomic step of R49: of the agent `schedule` names next, or of neither. -/
def stepWith (s : State N) : ResultOn N :=
  match s.schedule with
  | [] => quietStep ex s
  | a :: rest => agentStep ex a { s with schedule := rest }

end Sys2Proof.Machine
end

