-- ==== Sys2Proof/Machine/Step.lean ====
section
/-! DEFINITION. Sys2Proof/Machine/Step.lean: one step of the machine, and the presentation of one command for the very
next step. -/

namespace Sys2Proof.Machine

/-- One step of the machine on the plain-data state. -/
def step (s : State) : Host.Outcome State Fault Refusal := stepWith exec s

/-- One step of the machine over the number format `F`. -/
def stepOn {N : Type} (F : NumFormat N) (s : State N) : ResultOn N := stepWith (execOn F) s

/-- The machine for given values of the OPEN parameters of R4: the number format and the configuration its engine is
created with. `core` (Machine/Core.lean) is this machine for the values the plain-data state takes. -/
abbrev machineOn {N : Type} (F : NumFormat N) (c : Config N) : Host.Core :=
  { State := State N, Fault := Fault, Refusal := Refusal, step := stepOn F, reset := State.resetWith F c }

/-- The transaction that presents a table word: its low 16 bits, and the configuration's initial sample rate as the
operand beside it, a value every command of the table takes (log entry 8). -/
def State.tableTxn (s : State) (nbits w : Nat) : Txn ℚ :=
  { word := BitVec.ofNat 16 (w % 2 ^ nbits), val := s.config.sr0 }

/-- The agent on whose port a table word is presented: the one its command belongs to. -/
def tableAgent (nbits w : Nat) : Agent :=
  match decodeTableWord nbits w with
  | some i => i.port
  | none => .audio

/-- `s` with the command of a table word presented on its agent's port and that agent due to act, so that the very
next step runs it; for an AUDIO command the sequencer is put to idle, where AUDIO takes a command (log entry 8). -/
def State.withFetchWord (s : State) (nbits w : Nat) : State :=
  match tableAgent nbits w with
  | .audio =>
    { s with
      audio.pending := s.tableTxn nbits w :: s.audio.pending
      eng.fstep := .idle
      schedule := .audio :: s.schedule }
  | .control =>
    { s with
      control.pending := s.tableTxn nbits w :: s.control.pending
      schedule := .control :: s.schedule }

end Sys2Proof.Machine
end

