-- ==== Sys2Proof/Machine/Block.lean ====
section
/-! DEFINITION. Sys2Proof/Machine/Block.lean: the one pseudo-instruction, `BLOCK` (R70, R133): an expansion done by the
issuer, not a command of the block. -/

namespace Sys2Proof.Machine

/-- The transaction of the command `i` with the operand `v`. -/
def txnOf {N : Type} (i : Instr) (v : N) : Txn N := { word := encode i, val := v }

/-- `BLOCK n, in, out`: the `n` transactions `FRAME in[k]`, in order; nothing for `n = 0`. The outputs `out[k]` are the
results delivered on the AUDIO port. -/
def blockTxns {N : Type} (input : List N) : List (Txn N) := input.map (txnOf .frame)

end Sys2Proof.Machine
end

