-- ==== Sys2Proof/Safety.lean ====
section
/-! DEFINITION. Sys2Proof/Safety.lean: what a good state and a good step are, in the terms the statements use, over any
number format. -/

namespace Sys2Proof.Machine

variable {N : Type}

/-! ## States -/

/-- The DelayLine is in order: the buffer is in canonical form and lists only cells that exist (R21, R40), and the
write index is one of them (R15 a), so that the capacity is at least 1 (R13). -/
structure DelayLineInv (F : NumFormat N) (d : DelayLine N) : Prop where
  /-- Canonical form. -/
  memory_wf : Memory.wf F d.buffer
  /-- Every listed cell lies below the capacity. -/
  cells_lt : ∀ c ∈ d.buffer, c.1 < d.capacity
  /-- `0 <= dl.writeIndex < dl.capacity`. -/
  index_lt : d.writeIndex < d.capacity

/-- The sequencer stands between S1 and the end of the frame. -/
def FStep.afterWrite : FStep → Bool
  | .idle => false
  | .s1 => false
  | .s2 => true
  | .s3 => true
  | .s4 => true
  | .s5 => true
  | .s6 => true
  | .s7 => true

/-- What every state a run reaches satisfies: the DelayLine is in order; a frame is in progress only in the active
state (R122, R131); and from S1 to the end of the frame the cell at the write head holds the frame's input (R123). -/
structure Inv (F : NumFormat N) (s : State N) : Prop where
  /-- The DelayLine is in order. -/
  dl : DelayLineInv F s.dl
  /-- A frame in progress was accepted, and nothing can deactivate the engine inside it. -/
  frame_active : s.eng.fstep ≠ .idle → s.eng.active = true
  /-- The current input entered history before it can be read back. -/
  input_written : s.eng.fstep.afterWrite = true → s.dl.memRead F s.dl.writeIndex = s.eng.x

/-- `0 <= osc.phase <= TWO_PI`, the closed interval of R12 (C1), by the format's own comparison. -/
def PhaseInTurn (F : NumFormat N) (s : State N) : Prop :=
  F.gt F.zero s.osc.phase = false ∧ F.gt s.osc.phase F.twoPi = false

/-- The forwarded registers agree with the parameters (R26). -/
def Coherent (s : State N) : Prop := s.osc.frequency = s.eng.rate ∧ s.osc.amplitude = s.eng.depth

/-- The host's duty of R175: `0 <= osc.frequency < osc.sampleRate`. -/
def FrequencyInRange (F : NumFormat N) (s : State N) : Prop :=
  F.gt F.zero s.osc.frequency = false ∧ F.gt s.osc.sampleRate s.osc.frequency = true

/-- The distances `DL.READ` serves from true history: `0 <= dl.readDistance <= dl.capacity - 1` (R15 b, R108). -/
def DistanceInHistory (F : NumFormat N) (s : State N) : Prop :=
  F.gt F.zero s.dl.readDistance = false ∧
    F.gt s.dl.readDistance (F.sub (F.ofInt s.dl.capacity) F.one) = false

/-- The host's sizing duty of R176 for the largest depth `D` it will set. -/
def SizedFor (F : NumFormat N) (s : State N) (D : N) : Prop :=
  F.gt (F.add s.config.baseOffset D) (F.sub (F.ofInt s.dl.capacity) F.one) = false ∧
    F.gt D s.config.baseOffset = false

/-! ## Steps -/

/-- It is the turn of agent `a`, which takes the transaction `x` from its port: AUDIO only between frames (R48), CONTROL
at any point (R49). `more` stays on the port, `rest` of the schedule follows. -/
structure Due (s : State N) (a : Agent) (x : Txn N) (more : List (Txn N)) (rest : List Agent) : Prop where
  /-- The schedule names the agent. -/
  turn : s.schedule = a :: rest
  /-- The transaction stands first on its port. -/
  pending : (s.port a).pending = x :: more
  /-- AUDIO is between frames. -/
  idle : a = .audio → s.eng.fstep = .idle

/-- The state in which a command taken from a port runs: the turn is used up, the transaction is off the port, its
operand stands on the port. -/
def taken (s : State N) (a : Agent) (x : Txn N) (more : List (Txn N)) (rest : List Agent) : State N :=
  ({ s with schedule := rest } : State N).setPort a ((s.port a).take x more)

/-- The successor of R14: one part after the other, back to idle after S7. -/
def FStep.succ : FStep → FStep
  | .idle => .s1
  | .s1 => .s2
  | .s2 => .s3
  | .s3 => .s4
  | .s4 => .s5
  | .s5 => .s6
  | .s6 => .s7
  | .s7 => .idle

/-- How many micro-steps the frame in progress still has. -/
def FStep.left : FStep → Nat
  | .idle => 0
  | .s1 => 7
  | .s2 => 6
  | .s3 => 5
  | .s4 => 4
  | .s5 => 3
  | .s6 => 2
  | .s7 => 1

/-- An outcome with its next state, if any, changed by `f`. -/
def mapNext (f : State N → State N) (o : ResultOn N) : ResultOn N := andThen o fun t => .next (f t)

/-! ## Runs -/

variable (F : NumFormat N)

/-- `k` steps of the machine over the format `F`; `core.run` on the plain-data state. -/
def runOn : Nat → State N → ResultOn N
  | 0, s => .next s
  | k + 1, s => andThen (stepOn F s) (runOn k)

/-- Run a command `n` times (a `FRAME` is eight of its parts: the acceptance and S1 to S7). -/
def execTimes : Nat → Instr → State N → ResultOn N
  | 0, _, s => .next s
  | n + 1, i, s => andThen (execOn F i s) (execTimes n i)

/-- Run an AUDIO command with the operand `v`. -/
def execWith (i : Instr) (v : N) (s : State N) : ResultOn N := execOn F i { s with audio.val := v }

/-- The result delivered last on the AUDIO port. -/
def lastResult (s : State N) : N := s.audio.results.getLastD F.zero

/-- A whole frame with the input `x` and no CONTROL command inside it. -/
def wholeFrame (x : N) (s : State N) : ResultOn N := execTimes F 8 .frame { s with audio.val := x }

/-- The frame rebuilt from the direct commands, in the order of R178: `DL.WRITE x`, `OSC.GET -> m`,
`DL.SETD (m + BASE_OFFSET)`, `DL.READ -> wet`, `OSC.TICK`, `DL.TICK`. -/
def directFrame (x : N) (s : State N) : ResultOn N :=
  andThen (execWith F .dlWrite x s) fun s1 =>
  andThen (execOn F .oscGet s1) fun s2 =>
  andThen (execWith F .dlSetd (F.add (lastResult F s2) s2.config.baseOffset) s2) fun s3 =>
  andThen (execOn F .dlRead s3) fun s4 =>
  andThen (execOn F .oscTick s4) fun s5 =>
  execOn F .dlTick s5

/-- Write a run of samples with one `DL.TICK` between consecutive writes and none after the last (R111 a). -/
def writeRun : List N → State N → ResultOn N
  | [], s => .next s
  | [x], s => execWith F .dlWrite x s
  | x :: y :: rest, s =>
    andThen (execWith F .dlWrite x s) fun s1 => andThen (execOn F .dlTick s1) (writeRun (y :: rest))

/-- Set the distance `d`, then read. -/
def readAt (d : N) (s : State N) : ResultOn N := andThen (execWith F .dlSetd d s) (execOn F .dlRead)

/-- A frame with one `SETP id, v` of the CONTROL agent after its first `k` parts (acceptance, S1, ..., S7). -/
def frameWithSetp (k : Nat) (id : ParamId) (v : N) (s : State N) : ResultOn N :=
  andThen (execTimes F k .frame s) fun s1 =>
  andThen (execOn F (.setp id) { s1 with control.val := v }) (execTimes F (8 - k) .frame)

end Sys2Proof.Machine
end

