-- ==== Sys2Proof/Certificates/Slice0/Obligations.lean ====
section
/-! DEFINITION. Sys2Proof/Certificates/Slice0/Obligations.lean: the statements about the model, from the numbered rules of
the spec. `execOn F i s` is one command, or one part of a `FRAME`, and `stepOn F s` one step of the two-agent block, over
the number format `F`, which R4 leaves open. A statement that needs no law of numbers holds for every format; one that
does holds for every exact format (R5), the real numbers with `2π` and the sine among them, and takes `SineFacts` where
it needs the sine. `exec` and `step` are the case of the format the plain-data state holds
(`ExecAndStepAreTheCaseOfTheirFormat`). -/

open Sys2Proof Sys2Proof.Machine

/-! ## Encoding -/

/-- R61, R62, R63: decoding the word of a well-formed command gives the command back, with its operand. -/
def Obligations.DecodeOfEncodeIsTheCommand : Prop :=
  ∀ i : Instr, i.wf = true → decode (encode i) = .ok i

/-- R61, R62, R63: a word that decodes has one meaning: its command is well formed and encodes to that word. -/
def Obligations.EncodeOfDecodeIsTheWord : Prop :=
  ∀ (w : Word) (i : Instr), decode w = .ok i → i.wf = true ∧ encode i = w

/-- R64 (decision D26): the reserved encodings are the four listed cases and no other word, and a command with one
is refused `ReservedEncoding` by the step that takes it, on either port. -/
def Obligations.ReservedEncodingsAreRefused : Prop :=
  (∀ w : Word,
    (∃ e, decode w = .error e) ↔
      unitField w = 0b11#2 ∨ rsvField w ≠ 0b00#2 ∨
      (unitField w = 0b00#2 ∧ 0x6 ≤ (fnField w).toNat) ∨
      (unitField w = 0b01#2 ∧ 0x6 ≤ (fnField w).toNat) ∨
      (unitField w = 0b10#2 ∧ 0x5 ≤ (fnField w).toNat) ∨
      (opcodeField w ≠ 0x03#8 ∧ opcodeField w ≠ 0x04#8 ∧ opcodeField w ≠ 0x43#8 ∧
        argField w ≠ 0x00#8)) ∧
  (∀ (N : Type) (F : NumFormat N) (s : State N) (a : Agent) (x : Txn N) (more : List (Txn N))
    (rest : List Agent) (e : DecodeError),
    Due s a x more rest → decode x.word = .error e → stepOn F s = .refused .reservedEncoding)

/-- V-E1: one word of each command of R63, with its operand. -/
def Obligations.WordsOfTheOpcodeMapDecode : Prop :=
  [0x0000#16, 0x0001#16, 0x0002#16, 0x0103#16, 0x0204#16, 0x0005#16, 0x0040#16, 0x0041#16, 0x0042#16,
    0x0043#16, 0x0044#16, 0x0045#16, 0x0080#16, 0x0081#16, 0x0082#16, 0x0083#16, 0x0084#16].map
      (fun w => (decode w).toOption) =
  [.act, .deact, .srate, .getp .rate, .setp .depth, .frame, .oscSetsr, .oscSetf, .oscSeta, .oscSetw .sine,
    .oscTick, .oscGet, .dlSetsr, .dlWrite, .dlSetd, .dlRead, .dlTick].map some

/-! ## Steps -/

/-- R48, R49, R60: a step of the agent whose turn it is runs the command its word decodes to, with the operand that
travels beside the word; taking the command changes nothing but the turn and that port. -/
def Obligations.StepRunsTheDecodedCommand : Prop :=
  ∀ (N : Type) (F : NumFormat N) (s : State N) (a : Agent) (x : Txn N) (more : List (Txn N))
    (rest : List Agent) (i : Instr),
    Due s a x more rest → decode x.word = .ok i → i.port = a →
      stepOn F s = execOn F i (taken s a x more rest) ∧
      (taken s a x more rest).port a = { pending := more, val := x.val, results := (s.port a).results } ∧
      (∀ b, b ≠ a → (taken s a x more rest).port b = s.port b) ∧
      (taken s a x more rest).schedule = rest ∧ (taken s a x more rest).config = s.config ∧
      (taken s a x more rest).osc = s.osc ∧ (taken s a x more rest).dl = s.dl ∧
      (taken s a x more rest).eng = s.eng

/-- R49 (decision D20), R57: while a frame is in progress, a step of the AUDIO agent is the frame's next micro-step,
whatever waits on its port, and so is a step with nothing left in the schedule (log entry 6): an accepted frame runs on
to its end, with AUDIO's turns or without any. -/
def Obligations.StepContinuesTheFrame : Prop :=
  ∀ (N : Type) (F : NumFormat N) (s : State N), s.eng.fstep ≠ .idle →
    (∀ rest, s.schedule = .audio :: rest → stepOn F s = execOn F .frame { s with schedule := rest }) ∧
    (s.schedule = [] → stepOn F s = execOn F .frame s) ∧
    (s.osc.sampleRate ≠ F.zero → ∀ rest,
      s.schedule = List.replicate s.eng.fstep.left Agent.audio ++ rest ∨ (s.schedule = [] ∧ rest = []) →
        ∃ t, runOn F s.eng.fstep.left s = .next t ∧ t.eng.fstep = .idle ∧ t.schedule = rest ∧
          t.audio.pending = s.audio.pending)

/-- R71 (decision D20): `GETP` and `SETP` belong to the CONTROL port and every other command to the AUDIO port; a
command taken from the other port is refused `WrongPort`. -/
def Obligations.WrongPortIsRefused : Prop :=
  (∀ i : Instr, i.port = .control ↔ (∃ id, i = .getp id) ∨ ∃ id, i = .setp id) ∧
  (∀ (N : Type) (F : NumFormat N) (s : State N) (a : Agent) (x : Txn N) (more : List (Txn N))
    (rest : List Agent) (i : Instr),
    Due s a x more rest → decode x.word = .ok i → i.port ≠ a → stepOn F s = .refused .wrongPort)

/-- R171 (decision D12), R49, with the model's own schedule (log entry 6): between frames, with nothing left in the
schedule, a step answers the same state, after the reset of any configuration among them; and a turn of an agent that has
nothing to issue only passes: of AUDIO between frames, of CONTROL at any point. -/
def Obligations.BlockWaitsForCommands : Prop :=
  ∀ (N : Type) (F : NumFormat N),
    (∀ c : Config N, stepOn F (State.resetWith F c) = .next (State.resetWith F c)) ∧
    (∀ s : State N, s.schedule = [] → s.eng.fstep = .idle → stepOn F s = .next s) ∧
    (∀ (s : State N) (a : Agent) (rest : List Agent), s.schedule = a :: rest → (s.port a).pending = [] →
      (a = .audio → s.eng.fstep = .idle) → stepOn F s = .next { s with schedule := rest })

/-- R150, R157, R64, R71 (decisions D10, D14, D20, D26, D27): a step answers a next state or a refusal, and a refusal for
exactly the seven reasons of R157, each with its command and condition: in the command the step takes from a port, or in
micro-step S6 of the frame the step goes on with; never for a command the model left out. That the step of an empty
schedule goes on with a frame is log entry 6. -/
def Obligations.StepRefusesOnlyForTheReasonsOfR157 : Prop :=
  ∀ (N : Type) (F : NumFormat N) (s : State N),
    ((∃ t, stepOn F s = .next t) ∨ ∃ r, stepOn F s = .refused r) ∧
    ∀ r, stepOn F s = .refused r ↔
      (r = .reservedEncoding ∧ ∃ a x more rest e, Due s a x more rest ∧ decode x.word = .error e) ∨
      (r = .wrongPort ∧ ∃ a x more rest i, Due s a x more rest ∧ decode x.word = .ok i ∧ i.port ≠ a) ∨
      (∃ x more rest i, Due s .audio x more rest ∧ decode x.word = .ok i ∧
        ((r = .frameWhileInactive ∧ i = .frame ∧ s.eng.active = false) ∨
         (r = .reconfigureWhileActive ∧ (i = .srate ∨ i = .dlSetsr) ∧ s.eng.active = true) ∨
         (r = .zeroCapacity ∧ (i = .srate ∨ i = .dlSetsr) ∧ s.eng.active = false ∧
           F.ceilToInt (F.mul x.val s.config.maxDelaySeconds) < 1) ∨
         (r = .divideByZero ∧ i = .oscTick ∧ s.osc.sampleRate = F.zero) ∨
         (r = .reservedWaveform ∧ ∃ n, i = .oscSetw (.reserved n)))) ∨
      (r = .divideByZero ∧ s.eng.fstep = .s6 ∧ s.osc.sampleRate = F.zero ∧
        (s.schedule = [] ∨ ∃ rest, s.schedule = .audio :: rest))

/-! ## Reset -/

/-- R22, R100, R170 (the values the source omits are the decisions D7 to D12, D25): the state the creation of the engine
leaves, for every configuration with a buffer; one without is refused `ZeroCapacity`. -/
def Obligations.ResetLeavesTheTableOfR22 : Prop :=
  ∀ (N : Type) (F : NumFormat N) (c : Config N),
    (F.ceilToInt (F.mul c.sr0 c.maxDelaySeconds) < 1 → construct F c = .refused .zeroCapacity) ∧
    (1 ≤ F.ceilToInt (F.mul c.sr0 c.maxDelaySeconds) → ∃ t, construct F c = .next t ∧
      t.osc.sampleRate = c.sr0 ∧ t.osc.frequency = F.half ∧ t.osc.amplitude = F.half ∧
      t.osc.phase = F.zero ∧ t.osc.waveform = .sine ∧ t.osc.sample = F.zero ∧
      (t.dl.capacity : Int) = F.ceilToInt (F.mul c.sr0 c.maxDelaySeconds) ∧ (∀ i, t.dl.memRead F i = F.zero) ∧
      t.dl.writeIndex = 0 ∧ t.dl.readDistance = F.zero ∧
      t.eng.gain = F.one ∧ t.eng.rate = F.half ∧ t.eng.depth = F.half ∧ t.eng.active = false ∧
      t.eng.fstep = .idle ∧ t.config = c)

/-- The reset state of every configuration of R4 meets the invariant and coherence (R26), over every format, and the
phase range (R12), over every exact format; the machine's own reset state is one of them. The reset values this rests on
are in part the spec's decisions, which the model chose to take (log entry 11): D9 for coherence, D7 for the phase range,
D11 and D25 for the invariant; the configuration of `State.reset` is log entry 4's. -/
def Obligations.ResetMeetsTheInvariant : Prop :=
  (∀ (N : Type) (F : NumFormat N) (c : Config N), ConfigValid F c →
    Inv F (State.resetWith F c) ∧ Coherent (State.resetWith F c)) ∧
  (∀ (N : Type) [Field N] [LinearOrder N] [IsStrictOrderedRing N] [FloorRing N] (twoPi : N) (sin : N → N)
    (c : Config N), 0 < twoPi →
    PhaseInTurn (exactFormat twoPi sin) (State.resetWith (exactFormat twoPi sin) c)) ∧
  ∃ c, ConfigValid rationalFormat c ∧ State.reset = State.resetWith rationalFormat c

/-! ## State commands -/

/-- R130, R131 (decision D13): `ACT` and `DEACT` write the state flag and nothing else, in either state. -/
def Obligations.ActAndDeactWriteTheFlag : Prop :=
  ∀ (N : Type) (F : NumFormat N) (s : State N),
    execOn F .act s = .next { s with eng.active := true } ∧
    execOn F .deact s = .next { s with eng.active := false }

/-- R132, R101 (decisions D14, D15, D27): `SRATE` completes while inactive for a rate that has a buffer: capacity by the
capacity law, every cell `0`, write index `0`, and the oscillator's sample rate; nothing else changes. -/
def Obligations.SrateReconfiguresBothComponents : Prop :=
  ∀ (N : Type) (F : NumFormat N) (s : State N) (v : N) (n : Nat), s.audio.val = v → s.eng.active = false →
    (n : Int) = F.ceilToInt (F.mul v s.config.maxDelaySeconds) → 1 ≤ n →
      execOn F .srate s = .next { s with
        osc.sampleRate := v
        dl := { s.dl with capacity := n, writeIndex := 0, buffer := [] } } ∧
      ∀ i, DelayLine.memRead F { s.dl with capacity := n, writeIndex := 0, buffer := [] } i = F.zero

/-- R101 (decisions D14, D15, D27): `DL.SETSR` does the DelayLine half of that and leaves the oscillator alone. -/
def Obligations.DlSetsrReconfiguresTheDelayLine : Prop :=
  ∀ (N : Type) (F : NumFormat N) (s : State N) (v : N) (n : Nat), s.audio.val = v → s.eng.active = false →
    (n : Int) = F.ceilToInt (F.mul v s.config.maxDelaySeconds) → 1 ≤ n →
      execOn F .dlSetsr s = .next { s with
        dl := { s.dl with capacity := n, writeIndex := 0, buffer := [] } } ∧
      ∀ i, DelayLine.memRead F { s.dl with capacity := n, writeIndex := 0, buffer := [] } i = F.zero

/-- R101, R132, R153 (decisions D14, D27, D30): where the two reconfigurations stop, the state check first. -/
def Obligations.ReconfigurationIsRefused : Prop :=
  ∀ (N : Type) (F : NumFormat N) (s : State N) (i : Instr), i = .srate ∨ i = .dlSetsr →
    (s.eng.active = true → execOn F i s = .refused .reconfigureWhileActive) ∧
    (s.eng.active = false → F.ceilToInt (F.mul s.audio.val s.config.maxDelaySeconds) < 1 →
      execOn F i s = .refused .zeroCapacity)

/-- R132, over every exact format: with a positive `MAX_DELAY_SECONDS` (R4), "`SRATE` never leaves
`osc.sampleRate <= 0`". -/
def Obligations.SrateLeavesAPositiveRate : Prop :=
  ∀ (N : Type) [Field N] [LinearOrder N] [IsStrictOrderedRing N] [FloorRing N] (twoPi : N) (sin : N → N)
    (s t : State N), 0 < s.config.maxDelaySeconds → execOn (exactFormat twoPi sin) .srate s = .next t →
      0 < t.osc.sampleRate

/-! ## Parameters -/

/-- R128, R65: `GETP` delivers the register of a known id, `0` for every unknown id, on the CONTROL port, in any state;
nothing else changes. -/
def Obligations.GetpDeliversTheParameter : Prop :=
  ∀ (N : Type) (F : NumFormat N) (s : State N) (id : ParamId) (v : N),
    (id = .gain ∧ v = s.eng.gain ∨ id = .rate ∧ v = s.eng.rate ∨ id = .depth ∧ v = s.eng.depth ∨
      (∃ n, id = .unknown n) ∧ v = F.zero) →
    execOn F (.getp id) s = .next { s with control.results := s.control.results ++ [v] }

/-- R129, R65: `SETP` stores the value as given and forwards `rate` to the oscillator frequency and `depth` to its
amplitude; an unknown id changes nothing. In any state, a frame in progress included. -/
def Obligations.SetpStoresAndForwards : Prop :=
  ∀ (N : Type) (F : NumFormat N) (s : State N) (v : N), s.control.val = v →
    execOn F (.setp .gain) s = .next { s with eng.gain := v } ∧
    execOn F (.setp .rate) s = .next { s with eng.rate := v, osc.frequency := v } ∧
    execOn F (.setp .depth) s = .next { s with eng.depth := v, osc.amplitude := v } ∧
    ∀ n, execOn F (.setp (.unknown n)) s = .next s

/-- R50 (d): a `GETP` after a `SETP` of the same known id delivers the value written, whatever it is (R151: values are
not validated). -/
def Obligations.GetpReadsBackSetp : Prop :=
  ∀ (N : Type) (F : NumFormat N) (s : State N) (id : ParamId), id = .gain ∨ id = .rate ∨ id = .depth →
    ∃ t, andThen (execOn F (.setp id) s) (execOn F (.getp id)) = .next t ∧
      t.control.results = s.control.results ++ [s.control.val]

/-! ## Oscillator -/

/-- R81, R82, R83: the three setters store the operand unchecked and change nothing else. -/
def Obligations.OscSettersStoreTheOperand : Prop :=
  ∀ (N : Type) (F : NumFormat N) (s : State N) (v : N), s.audio.val = v →
    execOn F .oscSetsr s = .next { s with osc.sampleRate := v } ∧
    execOn F .oscSetf s = .next { s with osc.frequency := v } ∧
    execOn F .oscSeta s = .next { s with osc.amplitude := v }

/-- R84, R66 (decision D10): `OSC.SETW sine` selects the sine and changes nothing else; every other kind is refused. -/
def Obligations.OscSetwTakesSineOnly : Prop :=
  ∀ (N : Type) (F : NumFormat N) (s : State N),
    execOn F (.oscSetw .sine) s = .next { s with osc.waveform := .sine } ∧
    ∀ n, execOn F (.oscSetw (.reserved n)) s = .refused .reservedWaveform

/-- R85, R80, R7: `OSC.TICK` computes the sample, the amplitude times the sine of the phase before the advance, then
advances the phase by `((TWO_PI * frequency) / sampleRate)`, with one subtraction of `TWO_PI` if the new phase exceeds
it; a sample rate of `0` is refused. -/
def Obligations.OscTickSamplesThenAdvances : Prop :=
  ∀ (N : Type) (F : NumFormat N) (s : State N) (q : N),
    q = F.add s.osc.phase (F.div (F.mul F.twoPi s.osc.frequency) s.osc.sampleRate) →
    (s.osc.sampleRate ≠ F.zero →
      execOn F .oscTick s = .next { s with
        osc.sample := F.mul s.osc.amplitude (F.sin s.osc.phase)
        osc.phase := if F.gt q F.twoPi = true then F.sub q F.twoPi else q }) ∧
    (s.osc.sampleRate = F.zero → execOn F .oscTick s = .refused .divideByZero)

/-- R86: `OSC.GET` delivers the cached sample and changes nothing else. -/
def Obligations.OscGetDeliversTheSample : Prop :=
  ∀ (N : Type) (F : NumFormat N) (s : State N),
    execOn F .oscGet s = .next { s with audio.results := s.audio.results ++ [s.osc.sample] }

/-- R87, R80: over every exact format a tick leaves the sample within `[-amplitude, amplitude]`, and at the phases that
are a multiple of a quarter turn, or an odd twelfth of one, exactly the amplitude times the sine; in the reference
instance it is the amplitude times the mathematical sine at every phase. -/
def Obligations.TickSampleWithinAmplitude : Prop :=
  (∀ (N : Type) [Field N] [LinearOrder N] [IsStrictOrderedRing N] [FloorRing N] (twoPi : N) (sin : N → N)
    (s : State N), SineFacts twoPi sin → s.osc.sampleRate ≠ 0 →
      ∃ t, execOn (exactFormat twoPi sin) .oscTick s = .next t ∧ |t.osc.sample| ≤ |t.osc.amplitude| ∧
        ∀ p ∈ [((0 : N), (0 : N)), (1/12, 1/2), (1/4, 1), (5/12, 1/2), (1/2, 0), (7/12, -1/2), (3/4, -1),
            (11/12, -1/2), (1, 0)],
          s.osc.phase = twoPi * p.1 → t.osc.sample = s.osc.amplitude * p.2) ∧
  (∀ s : State ℝ, s.osc.sampleRate ≠ 0 →
    ∃ t, execOn (exactFormat (2 * Real.pi) Real.sin) .oscTick s = .next t ∧
      t.osc.sample = s.osc.amplitude * Real.sin s.osc.phase)

/-- R12 (a), R175: over every exact format, from a phase in `[0, TWO_PI]` with `0 <= frequency < sampleRate`, every step
leaves the phase in `[0, TWO_PI]`; and the two that move it, `OSC.TICK` and micro-step S6, complete. -/
def Obligations.TickKeepsThePhaseInTurn : Prop :=
  ∀ (N : Type) [Field N] [LinearOrder N] [IsStrictOrderedRing N] [FloorRing N] (twoPi : N) (sin : N → N)
    (s : State N), 0 < twoPi → PhaseInTurn (exactFormat twoPi sin) s →
    FrequencyInRange (exactFormat twoPi sin) s →
      (∀ t, stepOn (exactFormat twoPi sin) s = .next t → PhaseInTurn (exactFormat twoPi sin) t) ∧
      (∃ t, execOn (exactFormat twoPi sin) .oscTick s = .next t ∧ PhaseInTurn (exactFormat twoPi sin) t) ∧
      (s.eng.fstep = .s6 →
        ∃ t, execOn (exactFormat twoPi sin) .frame s = .next t ∧ PhaseInTurn (exactFormat twoPi sin) t)

/-- R88: the closed form of `n` ticks over every exact format: the phase is the accumulated one less a natural number of
turns, the sample is the amplitude times the sine of the accumulated phase of the tick before, whatever the frequency. -/
def Obligations.TicksHaveTheClosedForm : Prop :=
  ∀ (N : Type) [Field N] [LinearOrder N] [IsStrictOrderedRing N] [FloorRing N] (twoPi : N) (sin : N → N)
    (n : Nat) (s : State N) (inc : N), SineFacts twoPi sin → s.osc.sampleRate ≠ 0 →
    inc = twoPi * s.osc.frequency / s.osc.sampleRate →
    ∃ (t : State N) (w : Nat), execTimes (exactFormat twoPi sin) n .oscTick s = .next t ∧
      t.osc.phase = s.osc.phase + n * inc - w * twoPi ∧
      (0 < n → t.osc.sample = s.osc.amplitude * sin (s.osc.phase + (n - 1) * inc)) ∧
      t = { s with osc.phase := t.osc.phase, osc.sample := t.osc.sample }

/-- R89, over every exact format: with `sampleRate = P * frequency` for a natural `P`, the samples repeat every `P` ticks,
from the first on. -/
def Obligations.SamplesArePeriodic : Prop :=
  ∀ (N : Type) [Field N] [LinearOrder N] [IsStrictOrderedRing N] [FloorRing N] (twoPi : N) (sin : N → N)
    (P k : Nat) (s : State N), SineFacts twoPi sin → 0 < k → s.osc.sampleRate ≠ 0 →
    s.osc.sampleRate = P * s.osc.frequency →
      ∃ t u, execTimes (exactFormat twoPi sin) k .oscTick s = .next t ∧
        execTimes (exactFormat twoPi sin) (k + P) .oscTick s = .next u ∧ u.osc.sample = t.osc.sample

/-- R90, over every exact format: two consecutive samples, at constant amplitude and increment, differ by at most the
amplitude times the increment, whether or not the phase wrapped between them. -/
def Obligations.ConsecutiveSamplesAreClose : Prop :=
  ∀ (N : Type) [Field N] [LinearOrder N] [IsStrictOrderedRing N] [FloorRing N] (twoPi : N) (sin : N → N)
    (s : State N), SineFacts twoPi sin → s.osc.sampleRate ≠ 0 →
      ∃ t u, execOn (exactFormat twoPi sin) .oscTick s = .next t ∧
        execOn (exactFormat twoPi sin) .oscTick t = .next u ∧
        |u.osc.sample - t.osc.sample| ≤
          |s.osc.amplitude| * |twoPi * s.osc.frequency / s.osc.sampleRate|

/-- R91, over every exact format: with amplitude `0` at every tick and sample `0` before the first, `OSC.GET` delivers `0`
after any number of ticks. -/
def Obligations.ZeroAmplitudeReadsZero : Prop :=
  ∀ (N : Type) [Field N] [LinearOrder N] [IsStrictOrderedRing N] [FloorRing N] (twoPi : N) (sin : N → N)
    (n : Nat) (s : State N), s.osc.sampleRate ≠ 0 → s.osc.amplitude = 0 → s.osc.sample = 0 →
      ∃ t u, execTimes (exactFormat twoPi sin) n .oscTick s = .next t ∧
        execOn (exactFormat twoPi sin) .oscGet t = .next u ∧ u.audio.results = s.audio.results ++ [0]

/-! ## DelayLine -/

/-- R102: `DL.WRITE` stores the operand in the cell at the write index; every other cell reads as before; no register
changes. -/
def Obligations.DlWriteStoresAtTheWriteHead : Prop :=
  ∀ (N : Type) (F : NumFormat N) (s : State N) (v : N), DelayLineInv F s.dl → s.audio.val = v →
    ∃ t, execOn F .dlWrite s = .next t ∧ t = { s with dl.buffer := t.dl.buffer } ∧
      t.dl.memRead F s.dl.writeIndex = v ∧
      ∀ i : Nat, i < s.dl.capacity → i ≠ s.dl.writeIndex → t.dl.memRead F i = s.dl.memRead F i

/-- R103 (decision D16): `DL.SETD` stores the distance unchecked and changes nothing else. -/
def Obligations.DlSetdStoresTheDistance : Prop :=
  ∀ (N : Type) (F : NumFormat N) (s : State N),
    execOn F .dlSetd s = .next { s with dl.readDistance := s.audio.val }

/-- R104, R105, R7: `DL.READ` delivers `(((1 - f) * a) + (f * b))` for the cells `i` and `(i + 1) mod n` around the
position `p = mod_cap(of_int(w) - d, n)` (decision D16: the true modulo), `i = floor(p)`, `f = p - of_int(i)`, and changes
nothing else. -/
def Obligations.DlReadInterpolates : Prop :=
  ∀ (N : Type) (F : NumFormat N) (s : State N) (p f : N) (i : Int),
    p = F.modCap (F.sub (F.ofInt s.dl.writeIndex) s.dl.readDistance) s.dl.capacity →
    i = F.floor p → f = F.sub p (F.ofInt i) →
    execOn F .dlRead s = .next { s with
      audio.results := s.audio.results ++
        [F.add (F.mul (F.sub F.one f) (s.dl.memRead F i))
          (F.mul f (s.dl.memRead F ((i + 1) % s.dl.capacity)))] }

/-- R107: `DL.TICK` advances the write index by one, modulo the capacity, and changes nothing else. -/
def Obligations.DlTickAdvancesTheWriteHead : Prop :=
  ∀ (N : Type) (F : NumFormat N) (s : State N),
    execOn F .dlTick s = .next { s with dl.writeIndex := (s.dl.writeIndex + 1) % s.dl.capacity }

/-- R104, R6, R40, over every exact format: in a DelayLine in order the read position is the value of `[0, n)` a whole
number of capacities from `w - d`, the two cells of a read exist and the weight lies in `[0, 1)`. -/
def Obligations.ReadTapsLieInTheBuffer : Prop :=
  ∀ (N : Type) [Field N] [LinearOrder N] [IsStrictOrderedRing N] [FloorRing N] (twoPi : N) (sin : N → N)
    (F : NumFormat N) (d : DelayLine N), F = exactFormat twoPi sin → DelayLineInv F d →
    0 ≤ d.readPosition F ∧ d.readPosition F < d.capacity ∧
    (∃ k : Int, (d.writeIndex : N) - d.readDistance = d.readPosition F + k * d.capacity) ∧
    0 ≤ d.olderTap F ∧ d.olderTap F ≤ (d.capacity : Int) - 1 ∧
    0 ≤ d.newerTap F ∧ d.newerTap F ≤ (d.capacity : Int) - 1 ∧
    0 ≤ d.readFraction F ∧ d.readFraction F < 1

/-- R106, over every exact format: at an integral distance `k`, of either sign, a read is exactly the cell
`(w - k) mod n`. -/
def Obligations.IntegralDistanceReadsOneCell : Prop :=
  ∀ (N : Type) [Field N] [LinearOrder N] [IsStrictOrderedRing N] [FloorRing N] (twoPi : N) (sin : N → N)
    (F : NumFormat N) (s : State N) (k : Int), F = exactFormat twoPi sin → DelayLineInv F s.dl →
    s.dl.readDistance = k →
    execOn F .dlRead s = .next { s with
      audio.results := s.audio.results ++ [s.dl.memRead F ((s.dl.writeIndex : Int) - k)] }

/-- R111 (b), over every exact format: at distance `k + g` with `0 <= g < 1` a read is `(1 - g)` of the sample at distance
`k` and `g` of the one at distance `k + 1`, for every integer `k`. -/
def Obligations.FractionalDistanceInterpolates : Prop :=
  ∀ (N : Type) [Field N] [LinearOrder N] [IsStrictOrderedRing N] [FloorRing N] (twoPi : N) (sin : N → N)
    (F : NumFormat N) (s : State N) (k : Int) (g : N), F = exactFormat twoPi sin → DelayLineInv F s.dl →
    0 ≤ g → g < 1 → s.dl.readDistance = k + g →
    execOn F .dlRead s = .next { s with
      audio.results := s.audio.results ++
        [(1 - g) * s.dl.memRead F ((s.dl.writeIndex : Int) - k)
          + g * s.dl.memRead F ((s.dl.writeIndex : Int) - (k + 1))] }

/-- R109 (decision D16), over every exact format: distances a whole number of capacities apart cannot be told apart by a
read. -/
def Obligations.DistancesWrapAtTheCapacity : Prop :=
  ∀ (N : Type) [Field N] [LinearOrder N] [IsStrictOrderedRing N] [FloorRing N] (twoPi : N) (sin : N → N)
    (F : NumFormat N) (s : State N) (d : N) (k : Int), F = exactFormat twoPi sin → DelayLineInv F s.dl →
    ∃ r, readAt F d s = .next { s with
        audio.val := d, dl.readDistance := d, audio.results := s.audio.results ++ [r] } ∧
      readAt F (d + k * s.dl.capacity) s = .next { s with
        audio.val := d + k * s.dl.capacity, dl.readDistance := d + k * s.dl.capacity,
        audio.results := s.audio.results ++ [r] }

/-- R44, R111 (c): the reads have no side effect, so a repeated read delivers the same value; a repeated write of the
same value leaves what one leaves. -/
def Obligations.ReadsAndWritesAreIdempotent : Prop :=
  ∀ (N : Type) (F : NumFormat N) (s : State N), DelayLineInv F s.dl →
    (∃ r, execTimes F 2 .dlRead s = .next { s with audio.results := s.audio.results ++ [r, r] }) ∧
    (∃ r, execTimes F 2 .oscGet s = .next { s with audio.results := s.audio.results ++ [r, r] }) ∧
    (∀ id, ∃ r, execTimes F 2 (.getp id) s =
      .next { s with control.results := s.control.results ++ [r, r] }) ∧
    execTimes F 2 .dlWrite s = execOn F .dlWrite s

/-- R108, R111 (a), over every exact format: after a run of at most `capacity` samples, one tick between consecutive
writes, the read at distance `k` delivers the sample written `k` writes before the last, exactly; the oldest one at
distance `n` for a run of `n + 1`. -/
def Obligations.WrittenRunReadsBack : Prop :=
  ∀ (N : Type) [Field N] [LinearOrder N] [IsStrictOrderedRing N] [FloorRing N] (twoPi : N) (sin : N → N)
    (F : NumFormat N) (s : State N) (xs : List N) (k : Nat) (x : N), F = exactFormat twoPi sin →
    DelayLineInv F s.dl → xs.length ≤ s.dl.capacity → xs.reverse[k]? = some x →
      ∃ t u, writeRun F xs s = .next t ∧ readAt F k t = .next u ∧
        u.audio.results = s.audio.results ++ [x]

/-- R112, over every exact format: a reconfiguration leaves the least natural number of cells not below
`rate * MAX_DELAY_SECONDS`. -/
def Obligations.CapacityIsTheLeastUpperInteger : Prop :=
  ∀ (N : Type) [Field N] [LinearOrder N] [IsStrictOrderedRing N] [FloorRing N] (twoPi : N) (sin : N → N)
    (s t : State N) (i : Instr), i = .srate ∨ i = .dlSetsr → execOn (exactFormat twoPi sin) i s = .next t →
    s.audio.val * s.config.maxDelaySeconds ≤ t.dl.capacity ∧
    ∀ n : Nat, s.audio.val * s.config.maxDelaySeconds ≤ n → 1 ≤ n → t.dl.capacity ≤ n

/-! ## FRAME -/

/-- R122 (decision D14): between frames a `FRAME` is accepted exactly in the active state, and acceptance only moves the
sequencer to S1. -/
def Obligations.FrameIsAcceptedOnlyWhileActive : Prop :=
  ∀ (N : Type) (F : NumFormat N) (s : State N), s.eng.fstep = .idle →
    (s.eng.active = true → execOn F .frame s = .next { s with eng.fstep := .s1 }) ∧
    (s.eng.active = false → execOn F .frame s = .refused .frameWhileInactive)

/-- R121, R123 to R127 (decision D25 for the split): what each micro-step does, and that it changes nothing else (that S7
leaves `eng.x` and `eng.wet` as they are is the model's choice, log entry 15). S6 with a sample rate of `0` is
refused. -/
def Obligations.FrameMicroSteps : Prop :=
  ∀ (N : Type) (F : NumFormat N) (s : State N) (q wet : N),
    q = F.add s.osc.phase (F.div (F.mul F.twoPi s.osc.frequency) s.osc.sampleRate) →
    wet = s.dl.readSample F →
    (s.eng.fstep = .s1 → execOn F .frame s = .next { s with
      eng.x := s.audio.val, eng.fstep := .s2
      dl := s.dl.memWrite F s.dl.writeIndex s.audio.val }) ∧
    (s.eng.fstep = .s2 → execOn F .frame s = .next { s with
      eng.fstep := .s3, dl.readDistance := F.add s.osc.sample s.config.baseOffset }) ∧
    (s.eng.fstep = .s3 → execOn F .frame s = .next { s with eng.wet := wet, eng.fstep := .s4 }) ∧
    (s.eng.fstep = .s4 → execOn F .frame s = .next { s with
      eng.fstep := .s5
      audio.results := s.audio.results ++
        [F.mul F.half (F.add (F.mul s.eng.x (F.sub F.one s.eng.gain)) (F.mul s.eng.wet s.eng.gain))] }) ∧
    (s.eng.fstep = .s5 → execOn F .frame s = .next { s with
      eng.fstep := .s6, osc.sample := F.mul s.osc.amplitude (F.sin s.osc.phase) }) ∧
    (s.eng.fstep = .s6 → s.osc.sampleRate ≠ F.zero → execOn F .frame s = .next { s with
      eng.fstep := .s7, osc.phase := if F.gt q F.twoPi = true then F.sub q F.twoPi else q }) ∧
    (s.eng.fstep = .s6 → s.osc.sampleRate = F.zero → execOn F .frame s = .refused .divideByZero) ∧
    (s.eng.fstep = .s7 → execOn F .frame s = .next { s with
      eng.fstep := .idle, dl.writeIndex := (s.dl.writeIndex + 1) % s.dl.capacity })

/-- R121: a whole `FRAME`, its acceptance and seven micro-steps with no CONTROL command between: the input is in the
buffer at the write head, the distance is the sample cached before plus the base offset, the output is the mixer's,
the oscillator has ticked once after being read and the write head advanced once; nothing else changes. That `eng.x` and
`eng.wet` then still hold the frame's values is the model's choice (log entry 15): R18 gives them no meaning there. -/
def Obligations.FrameRunsTheFixedSequence : Prop :=
  ∀ (N : Type) (F : NumFormat N) (s : State N) (x wet q : N) (d : DelayLine N),
    s.eng.fstep = .idle → s.eng.active = true → s.osc.sampleRate ≠ F.zero → s.audio.val = x →
    d = { s.dl.memWrite F s.dl.writeIndex x with
      readDistance := F.add s.osc.sample s.config.baseOffset } →
    wet = d.readSample F →
    q = F.add s.osc.phase (F.div (F.mul F.twoPi s.osc.frequency) s.osc.sampleRate) →
      execTimes F 8 .frame s = .next { s with
        eng.x := x, eng.wet := wet
        dl := { d with writeIndex := (s.dl.writeIndex + 1) % s.dl.capacity }
        osc.sample := F.mul s.osc.amplitude (F.sin s.osc.phase)
        osc.phase := if F.gt q F.twoPi = true then F.sub q F.twoPi else q
        audio.results := s.audio.results ++
          [F.mul F.half (F.add (F.mul x (F.sub F.one s.eng.gain)) (F.mul wet s.eng.gain))] }

/-- R126, R136 (b), over every exact format: at gain `0` a frame's output is half its input, whatever rate, depth and
history are; at gain `1` it is half the sample that the frame's read, at the distance it sets, delivers from the buffer it
has written. -/
def Obligations.MixerAtGainZeroAndOne : Prop :=
  ∀ (N : Type) [Field N] [LinearOrder N] [IsStrictOrderedRing N] [FloorRing N] (twoPi : N) (sin : N → N)
    (s : State N) (wet : N), s.eng.fstep = .idle → s.eng.active = true → s.osc.sampleRate ≠ 0 →
    wet = DelayLine.readSample (exactFormat twoPi sin)
      { s.dl.memWrite (exactFormat twoPi sin) s.dl.writeIndex s.audio.val with
        readDistance := s.osc.sample + s.config.baseOffset } →
    ∃ t, execTimes (exactFormat twoPi sin) 8 .frame s = .next t ∧
      (s.eng.gain = 0 → t.audio.results = s.audio.results ++ [1 / 2 * s.audio.val]) ∧
      (s.eng.gain = 1 → t.audio.results = s.audio.results ++ [1 / 2 * wet])

/-- R178: the direct commands issued in the frame order reach what the `FRAME` reaches in every `osc.*` and `dl.*`
register and in the buffer, and the frame's output is the mixer of the input and the sample `DL.READ` delivered. -/
def Obligations.DirectCommandsReproduceTheFrame : Prop :=
  ∀ (N : Type) (F : NumFormat N) (s : State N), s.eng.fstep = .idle → s.eng.active = true →
    s.osc.sampleRate ≠ F.zero →
    ∃ t u, execTimes F 8 .frame s = .next t ∧ directFrame F s.audio.val s = .next u ∧
      t.osc = u.osc ∧ t.dl = u.dl ∧
      t.audio.results = s.audio.results ++ [mix F s.eng.gain s.audio.val (lastResult F u)] ∧
      u.audio.results = s.audio.results ++ [s.osc.sample, lastResult F u]

/-- R134, R124: the modulation of a frame is the sample computed at the end of the frame before, from the phase at that
frame's start; the first frame uses the sample cached before it. -/
def Obligations.ModulationLagsOneTick : Prop :=
  ∀ (N : Type) (F : NumFormat N) (s : State N) (x y : N), s.eng.fstep = .idle → s.eng.active = true →
    s.osc.sampleRate ≠ F.zero →
    ∃ t u, wholeFrame F x s = .next t ∧ wholeFrame F y t = .next u ∧
      t.dl.readDistance = F.add s.osc.sample s.config.baseOffset ∧
      u.dl.readDistance = F.add (F.mul s.osc.amplitude (F.sin s.osc.phase)) s.config.baseOffset

/-- R136 (a), over every exact format: with gain `1`, amplitude `0`, sample `0`, base offset `1` and a capacity of at least
2, each frame after the first outputs half of the input of the frame before it. -/
def Obligations.ZeroDepthDelaysByOneFrame : Prop :=
  ∀ (N : Type) [Field N] [LinearOrder N] [IsStrictOrderedRing N] [FloorRing N] (twoPi : N) (sin : N → N)
    (F : NumFormat N) (s : State N) (x y : N), F = exactFormat twoPi sin →
    s.eng.fstep = .idle → s.eng.active = true → s.osc.sampleRate ≠ 0 →
    DelayLineInv F s.dl → 2 ≤ s.dl.capacity → s.config.baseOffset = 1 →
    s.eng.gain = 1 → s.osc.amplitude = 0 → s.osc.sample = 0 →
    ∃ t u r, wholeFrame F x s = .next t ∧ wholeFrame F y t = .next u ∧
      u.audio.results = s.audio.results ++ [r, 1 / 2 * x]

/-- R50 (b), (c): one `SETP` during a frame, after `k` of its eight parts. A gain is seen by this frame's mixer exactly if
it falls before S4, and once written is the gain after; a depth is seen by this frame's sample exactly if it falls before
S5, a rate by this frame's phase advance exactly if it falls before S6. -/
def Obligations.ConcurrentSetpIsSeenOrNot : Prop :=
  ∀ (N : Type) (F : NumFormat N) (s : State N) (k : Nat) (v wet : N), k ≤ 8 → s.eng.fstep = .idle →
    s.eng.active = true → s.osc.sampleRate ≠ F.zero →
    wet = DelayLine.readSample F { s.dl.memWrite F s.dl.writeIndex s.audio.val with
      readDistance := F.add s.osc.sample s.config.baseOffset } →
    (∃ t, frameWithSetp F k .gain v s = .next t ∧ t.eng.gain = v ∧
      t.audio.results = s.audio.results ++
        [mix F (if k ≤ 4 then v else s.eng.gain) s.audio.val wet]) ∧
    (∃ t, frameWithSetp F k .depth v s = .next t ∧ t.osc.amplitude = v ∧
      t.osc.sample = F.mul (if k ≤ 5 then v else s.osc.amplitude) (F.sin s.osc.phase)) ∧
    (∃ t, frameWithSetp F k .rate v s = .next t ∧ t.osc.frequency = v ∧
      t.osc.phase = wrapOnce F (F.add s.osc.phase
        (phaseIncrement F (if k ≤ 6 then v else s.osc.frequency) s.osc.sampleRate)))

/-- R176, over every exact format: where the buffer is sized for the depth `D` and the cached sample is within it, the
distance S2 sets is served from true history. -/
def Obligations.SizedFramesReadTrueHistory : Prop :=
  ∀ (N : Type) [Field N] [LinearOrder N] [IsStrictOrderedRing N] [FloorRing N] (twoPi : N) (sin : N → N)
    (F : NumFormat N) (s : State N) (D : N), F = exactFormat twoPi sin → SizedFor F s D →
    |s.osc.sample| ≤ D → s.eng.fstep = .s2 → ∃ t, execOn F .frame s = .next t ∧ DistanceInHistory F t

/-- R57, R133: a `BLOCK` runs to completion: with its `n` frames pending and the AUDIO agent acting, `8 n` steps deliver
exactly `n` results, advance the write head `n` times, and leave the block ready for what follows. That a frame is eight
steps rests on its acceptance being a step of its own (log entry 9, DEDUCED), and the turns are the model's schedule
(log entry 6). -/
def Obligations.BlockRunsToCompletion : Prop :=
  ∀ (N : Type) (F : NumFormat N) (xs : List N) (s : State N) (more : List (Txn N)) (rest : List Agent),
    s.eng.fstep = .idle → s.eng.active = true → s.osc.sampleRate ≠ F.zero →
    s.dl.writeIndex < s.dl.capacity → s.audio.pending = blockTxns xs ++ more →
    s.schedule = List.replicate (8 * xs.length) Agent.audio ++ rest →
      ∃ (t : State N) (outs : List N), runOn F (8 * xs.length) s = .next t ∧
        outs.length = xs.length ∧ t.audio.results = s.audio.results ++ outs ∧
        t.audio.pending = more ∧ t.schedule = rest ∧ t.eng.fstep = .idle ∧ t.eng.active = true ∧
        t.dl.writeIndex = (s.dl.writeIndex + xs.length) % s.dl.capacity

/-! ## The whole block -/

/-- R15 (a), R21, R40, R122, R123: every step keeps the invariant, over every format. -/
def Obligations.StepKeepsTheInvariant : Prop :=
  ∀ (N : Type) (F : NumFormat N) (s t : State N), Inv F s → stepOn F s = .next t → Inv F t

/-- R157, R158 (decisions D10, D14, D27): a command is refused exactly in these five cases and for these reasons. -/
def Obligations.CommandsAreRefusedExactlyWhereR157Says : Prop :=
  ∀ (N : Type) (F : NumFormat N) (i : Instr) (s : State N) (r : Refusal), execOn F i s = .refused r ↔
    (r = .frameWhileInactive ∧ i = .frame ∧ s.eng.fstep = .idle ∧ s.eng.active = false) ∨
    (r = .reconfigureWhileActive ∧ (i = .srate ∨ i = .dlSetsr) ∧ s.eng.active = true) ∨
    (r = .zeroCapacity ∧ (i = .srate ∨ i = .dlSetsr) ∧ s.eng.active = false ∧
      F.ceilToInt (F.mul s.audio.val s.config.maxDelaySeconds) < 1) ∨
    (r = .divideByZero ∧ (i = .oscTick ∨ i = .frame ∧ s.eng.fstep = .s6) ∧ s.osc.sampleRate = F.zero) ∨
    (r = .reservedWaveform ∧ ∃ n, i = .oscSetw (.reserved n))

/-- R11 (column "written by"), R12 (c), R23: which commands can write which oscillator register. -/
def Obligations.OscRegistersAreWrittenAsR11Says : Prop :=
  ∀ (N : Type) (F : NumFormat N) (i : Instr) (s t : State N), execOn F i s = .next t →
    (t.osc.sampleRate ≠ s.osc.sampleRate → i = .oscSetsr ∨ i = .srate) ∧
    (t.osc.frequency ≠ s.osc.frequency → i = .oscSetf ∨ i = .setp .rate) ∧
    (t.osc.amplitude ≠ s.osc.amplitude → i = .oscSeta ∨ i = .setp .depth) ∧
    (t.osc.phase ≠ s.osc.phase → i = .oscTick ∨ i = .frame ∧ s.eng.fstep = .s6) ∧
    (t.osc.sample ≠ s.osc.sample → i = .oscTick ∨ i = .frame ∧ s.eng.fstep = .s5) ∧
    t.osc.waveform = .sine

/-- R13 (column "written by"), R21, R43: which commands can write which DelayLine register and which touch the buffer;
under every other command every cell reads as before. -/
def Obligations.DelayLineIsWrittenAsR13Says : Prop :=
  ∀ (N : Type) (F : NumFormat N) (i : Instr) (s t : State N), execOn F i s = .next t →
    (t.dl.capacity ≠ s.dl.capacity → i = .dlSetsr ∨ i = .srate) ∧
    (t.dl.writeIndex ≠ s.dl.writeIndex →
      i = .dlTick ∨ i = .frame ∧ s.eng.fstep = .s7 ∨ i = .dlSetsr ∨ i = .srate) ∧
    (t.dl.readDistance ≠ s.dl.readDistance → i = .dlSetd ∨ i = .frame ∧ s.eng.fstep = .s2) ∧
    (t.dl.buffer ≠ s.dl.buffer →
      i = .dlWrite ∨ i = .frame ∧ s.eng.fstep = .s1 ∨ i = .dlSetsr ∨ i = .srate) ∧
    (i ≠ .dlWrite → ¬(i = .frame ∧ s.eng.fstep = .s1) → i ≠ .dlSetsr → i ≠ .srate →
      ∀ a, t.dl.memRead F a = s.dl.memRead F a)

/-- R16, R17, R14, R18: which commands can write the parameter registers, the state flag, the sequencer (which moves to
its successor under `FRAME` and stands still under every other command) and its temporaries (that these also keep their
values between frames is the model's choice, log entry 15). -/
def Obligations.EngineRegistersAreWrittenAsR16Says : Prop :=
  ∀ (N : Type) (F : NumFormat N) (i : Instr) (s t : State N), execOn F i s = .next t →
    (t.eng.gain ≠ s.eng.gain → i = .setp .gain) ∧
    (t.eng.rate ≠ s.eng.rate → i = .setp .rate) ∧
    (t.eng.depth ≠ s.eng.depth → i = .setp .depth) ∧
    (t.eng.active ≠ s.eng.active → i = .act ∨ i = .deact) ∧
    t.eng.fstep = (if i = .frame then s.eng.fstep.succ else s.eng.fstep) ∧
    (t.eng.x ≠ s.eng.x → i = .frame ∧ s.eng.fstep = .s1) ∧
    (t.eng.wet ≠ s.eng.wet → i = .frame ∧ s.eng.fstep = .s3)

/-- R13 (its last sentence), R60, R63 (column "res out"): no command changes the configuration, what waits on a port, an
operand or the schedule; exactly one result is delivered by `OSC.GET`, `DL.READ` and frame micro-step S4 on the AUDIO
port and by `GETP` on the CONTROL port, and none by anything else. -/
def Obligations.PortsAreWrittenAsR63Says : Prop :=
  ∀ (N : Type) (F : NumFormat N) (i : Instr) (s t : State N), execOn F i s = .next t →
    t.config = s.config ∧ t.schedule = s.schedule ∧
    t.audio.pending = s.audio.pending ∧ t.audio.val = s.audio.val ∧
    t.control.pending = s.control.pending ∧ t.control.val = s.control.val ∧
    (i = .oscGet ∨ i = .dlRead ∨ i = .frame ∧ s.eng.fstep = .s4 →
      ∃ r, t.audio.results = s.audio.results ++ [r]) ∧
    (¬(i = .oscGet ∨ i = .dlRead ∨ i = .frame ∧ s.eng.fstep = .s4) →
      t.audio.results = s.audio.results) ∧
    ((∃ id, i = .getp id) → ∃ r, t.control.results = s.control.results ++ [r]) ∧
    ((¬∃ id, i = .getp id) → t.control.results = s.control.results)

/-- R159: AUDIO commands do not see the parameter registers, except that `FRAME` reads the gain; CONTROL commands neither
see nor write the DelayLine or the oscillator, except that `SETP` forwards. -/
def Obligations.AgentsSeeOnlyTheirOwnRegisters : Prop :=
  ∀ (N : Type) (F : NumFormat N),
    (∀ (i : Instr) (s : State N) (r d : N), i.port = .audio →
      execOn F i { s with eng.rate := r, eng.depth := d } =
        mapNext (fun t => { t with eng.rate := r, eng.depth := d }) (execOn F i s)) ∧
    (∀ (i : Instr) (s : State N) (g : N), i.port = .audio → i ≠ .frame →
      execOn F i { s with eng.gain := g } = mapNext (fun t => { t with eng.gain := g }) (execOn F i s)) ∧
    (∀ (i : Instr) (s : State N) (o : Oscillator N) (d : DelayLine N), i.port = .control →
      ∃ t u, execOn F i s = .next t ∧ execOn F i { s with osc := o, dl := d } = .next u ∧
        u.eng = t.eng ∧ u.control = t.control ∧ t.dl = s.dl ∧ u.dl = d)

/-- R26: where no direct `OSC.SETF` or `OSC.SETA` is issued, the forwarded registers agree with the parameters. -/
def Obligations.CoherenceIsKept : Prop :=
  ∀ (N : Type) (F : NumFormat N) (i : Instr) (s t : State N), i ≠ .oscSetf → i ≠ .oscSeta → Coherent s →
    execOn F i s = .next t → Coherent t

/-- R23, R177: `DEACT`, `SRATE`, `ACT` from any state between frames, with a rate that has a buffer, completes and
preserves the three parameters, the phase, the cached sample and the read distance. -/
def Obligations.SampleRateChangePreservesParameters : Prop :=
  ∀ (N : Type) (F : NumFormat N) (s : State N),
    1 ≤ F.ceilToInt (F.mul s.audio.val s.config.maxDelaySeconds) →
    ∃ t, andThen (execOn F .deact s) (fun s1 => andThen (execOn F .srate s1) (execOn F .act)) = .next t ∧
      t.eng.gain = s.eng.gain ∧ t.eng.rate = s.eng.rate ∧ t.eng.depth = s.eng.depth ∧
      t.osc.phase = s.osc.phase ∧ t.osc.sample = s.osc.sample ∧
      t.osc.frequency = s.osc.frequency ∧ t.osc.amplitude = s.osc.amplitude ∧
      t.dl.readDistance = s.dl.readDistance ∧ t.dl.writeIndex = 0 ∧ (∀ a, t.dl.memRead F a = F.zero) ∧
      t.osc.sampleRate = s.audio.val ∧ t.eng.active = true

/-! ## The number format -/

/-- R4, R5, R6, R57, R158: `exec`, `step` and the machine are those over any format, taken at the format
`rationalFormat` that the plain-data state holds and the configuration of log entry 4; every command outside the five cases of R157 answers a next state of
`exec`. That format is exact with a sine that keeps `SineFacts` (its `TWO_PI` and the sine's irrational values are the
model's, log entries 1 to 3), and so is the reference instance: the real numbers, `2π` and the mathematical sine. -/
def Obligations.ExecAndStepAreTheCaseOfTheirFormat : Prop :=
  (∀ (i : Instr) (s : State), exec i s = execOn rationalFormat i s) ∧
  (∀ s : State, step s = stepOn rationalFormat s) ∧
  core = machineOn rationalFormat Config.vectors ∧
  (∀ (N : Type) (F : NumFormat N) (c : Config N) (k : Nat) (s : State N),
    (machineOn F c).run k s = runOn F k s) ∧
  (∀ (i : Instr) (s : State),
    (i = .frame → s.eng.fstep = .idle → s.eng.active = true) →
    (i = .frame → s.eng.fstep = .s6 → s.osc.sampleRate ≠ 0) →
    (i = .oscTick → s.osc.sampleRate ≠ 0) →
    (i = .srate ∨ i = .dlSetsr → s.eng.active = false ∧ 1 ≤ ⌈s.audio.val * s.config.maxDelaySeconds⌉) →
    (∀ n, i ≠ .oscSetw (.reserved n)) →
      ∃ t, exec i s = .next t ∧ execOn rationalFormat i s = .next t) ∧
  (∃ sin, rationalFormat = exactFormat Config.twoPi sin ∧ SineFacts Config.twoPi sin) ∧
  SineFacts (2 * Real.pi) Real.sin
end

