-- ==== Sys2Proof/Laws/Decode.lean ====
section
/-! SUPPORT. Sys2Proof/Laws/Decode.lean: the fields of a word the encoder writes are what it wrote. -/

namespace Sys2Proof

/-- Bit by bit, the layout of R61. -/
theorem wordOf_getLsbD (n : Nat) (u : BitVec 2) (f : BitVec 4) (k : Nat) :
    (wordOf n u f).getLsbD k =
      if k < 4 then f.getLsbD k else if k < 6 then false else if k < 8 then u.getLsbD (k - 6)
      else (BitVec.ofNat 8 n).getLsbD (k - 8) := by
  change (BitVec.ofNat 8 n ++ (u ++ ((0b00#2 ++ f : BitVec (2 + 4)) : BitVec (2 + 4)) : BitVec (2 + (2 + 4))) :
    BitVec (8 + (2 + (2 + 4)))).getLsbD k = _
  simp only [BitVec.getLsbD_append]
  split_ifs <;> first | rfl | omega | simp

theorem opcodeField_wordOf (n : Nat) (u : BitVec 2) (f : BitVec 4) :
    opcodeField (wordOf n u f) = BitVec.ofNat 8 (u.toNat * 64 + f.toNat) := by
  have bits : ∀ u : BitVec 2, ∀ f : BitVec 4, ∀ k : Fin 8,
      (if k.val < 4 then f.getLsbD k else if k.val < 6 then false else u.getLsbD (k - 6)) =
        (BitVec.ofNat 8 (u.toNat * 64 + f.toNat)).getLsbD k := by decide +kernel
  apply BitVec.eq_of_getLsbD_eq
  intro i hi
  rw [← bits u f ⟨i, hi⟩, opcodeField, BitVec.getLsbD_extractLsb', wordOf_getLsbD]
  simp [hi]

theorem argField_wordOf (n : Nat) (u : BitVec 2) (f : BitVec 4) :
    argField (wordOf n u f) = BitVec.ofNat 8 n := by
  apply BitVec.eq_of_getLsbD_eq
  intro i hi
  rw [argField, BitVec.getLsbD_extractLsb', wordOf_getLsbD]
  have h1 : ¬ 8 + i < 4 := by omega
  have h2 : ¬ 8 + i < 6 := by omega
  simp [hi, h1, h2]

theorem rsvField_wordOf (n : Nat) (u : BitVec 2) (f : BitVec 4) : rsvField (wordOf n u f) = 0b00#2 := by
  apply BitVec.eq_of_getLsbD_eq
  intro i hi
  have h2 : 4 + i < 6 := by omega
  rw [rsvField, BitVec.getLsbD_extractLsb', wordOf_getLsbD, if_neg (by omega), if_pos h2]
  simp

theorem unitField_wordOf (n : Nat) (u : BitVec 2) (f : BitVec 4) : unitField (wordOf n u f) = u := by
  apply BitVec.eq_of_getLsbD_eq
  intro i hi
  rw [unitField, BitVec.getLsbD_extractLsb', wordOf_getLsbD, if_neg (by omega), if_neg (by omega),
    if_pos (by omega)]
  simp [hi]

theorem fnField_wordOf (n : Nat) (u : BitVec 2) (f : BitVec 4) : fnField (wordOf n u f) = f := by
  apply BitVec.eq_of_getLsbD_eq
  intro i hi
  rw [fnField, BitVec.getLsbD_extractLsb', wordOf_getLsbD, if_pos (by omega)]
  simp [hi]

end Sys2Proof
end

