-- ==== Sys2Proof/Laws/Memory.lean ====
section
/-! SUPPORT. Sys2Proof/Laws/Memory.lean: the delay buffer's cells: read after write, and the canonical form. -/

namespace Sys2Proof.Machine

variable {N : Type} {F : NumFormat N}

/-- The check for `0` says what it says. -/
theorem isZero_iff (a : N) : isZero F a = true ↔ a = F.zero := by simp [isZero]

theorem isZero_false_iff (a : N) : isZero F a = false ↔ a ≠ F.zero := by simp [isZero]

@[simp] theorem read_nil (i : Nat) : Memory.read F [] i = F.zero := rfl

theorem read_cons (j : Nat) (w : N) (m : Memory N) (i : Nat) :
    Memory.read F ((j, w) :: m) i = if j = i then w else m.read F i := rfl

theorem wf_tail {c : Nat × N} {m : Memory N} (h : Memory.wf F (c :: m)) : m.wf F :=
  ⟨(List.pairwise_cons.1 h.1).2, fun d hd => h.2 d (List.mem_cons_of_mem _ hd)⟩

theorem wf_head_lt {c : Nat × N} {m : Memory N} (h : Memory.wf F (c :: m)) : ∀ d ∈ m, c.1 < d.1 :=
  (List.pairwise_cons.1 h.1).1

theorem wf_cons {c : Nat × N} {m : Memory N} (h : m.wf F) (lt : ∀ d ∈ m, c.1 < d.1)
    (nz : isZero F c.2 = false) : Memory.wf F (c :: m) :=
  ⟨List.pairwise_cons.2 ⟨lt, h.1⟩, fun d hd => by
    rcases List.mem_cons.1 hd with rfl | hd
    · exact nz
    · exact h.2 d hd⟩

/-- A cell that is not listed reads as zero. -/
theorem read_of_forall_ne {m : Memory N} {i : Nat} (h : ∀ c ∈ m, c.1 ≠ i) : m.read F i = F.zero := by
  induction m with
  | nil => rfl
  | cons c m ih =>
    obtain ⟨j, w⟩ := c
    rw [read_cons, if_neg (h (j, w) (List.mem_cons_self ..))]
    exact ih fun d hd => h d (List.mem_cons_of_mem _ hd)

/-- The cells a store can leave listed: the stored one and those listed before. -/
theorem mem_write {m : Memory N} {i : Nat} {v : N} {c : Nat × N} (h : c ∈ m.write F i v) :
    (c = (i, v) ∧ isZero F v = false) ∨ c ∈ m := by
  induction m with
  | nil =>
    cases hv : isZero F v <;> simp_all [Memory.write]
  | cons d m ih =>
    obtain ⟨j, w⟩ := d
    simp only [Memory.write] at h
    cases hv : isZero F v <;> simp only [hv, if_true, if_false, Bool.false_eq_true] at h <;>
      split_ifs at h <;> simp only [List.mem_cons] at h ⊢ <;> grind

/-- A store keeps the canonical form. -/
theorem write_wf {m : Memory N} (h : m.wf F) (i : Nat) (v : N) : Memory.wf F (m.write F i v) := by
  induction m with
  | nil =>
    cases hv : isZero F v
    · rw [Memory.write, hv]; exact wf_cons h (by simp) hv
    · rw [Memory.write, hv]; exact h
  | cons d m ih =>
    obtain ⟨j, w⟩ := d
    have lt := wf_head_lt h
    have hw : isZero F w = false := h.2 (j, w) (List.mem_cons_self ..)
    rcases lt_trichotomy i j with h1 | rfl | h1
    · rw [Memory.write, if_pos h1]
      cases hv : isZero F v
      · refine wf_cons h (fun d hd => ?_) hv
        rcases List.mem_cons.1 hd with rfl | hd
        · exact h1
        · exact lt_trans h1 (lt d hd)
      · exact h
    · rw [Memory.write, if_neg (lt_irrefl i), if_pos rfl]
      cases hv : isZero F v
      · exact wf_cons (wf_tail h) lt hv
      · exact wf_tail h
    · rw [Memory.write, if_neg h1.not_gt, if_neg h1.ne']
      refine wf_cons (ih (wf_tail h)) (fun d hd => ?_) hw
      rcases mem_write hd with ⟨rfl, -⟩ | hd
      · exact h1
      · exact lt d hd

/-- A store keeps every listed cell below a bound that the stored cell meets. -/
theorem write_lt {m : Memory N} {n i : Nat} (h : ∀ c ∈ m, c.1 < n) (hi : i < n) (v : N) :
    ∀ c ∈ m.write F i v, c.1 < n := by
  intro c hc
  rcases mem_write hc with ⟨rfl, -⟩ | hc
  · exact hi
  · exact h c hc

/-- Read after write: the stored cell holds the sample, every other cell what it held. -/
theorem read_write {m : Memory N} (h : m.wf F) (i : Nat) (v : N) (k : Nat) :
    (m.write F i v).read F k = if k = i then v else m.read F k := by
  induction m with
  | nil =>
    cases hv : isZero F v
    · simp [Memory.write, hv, read_cons, eq_comm]
    · rw [Memory.write, if_pos hv]; simp [(isZero_iff v).1 hv]
  | cons d m ih =>
    obtain ⟨j, w⟩ := d
    have absent : ∀ k, k ≤ j → Memory.read F m k = F.zero := fun k hk =>
      read_of_forall_ne fun c hc => (lt_of_le_of_lt hk (wf_head_lt h c hc)).ne'
    rcases lt_trichotomy i j with h1 | rfl | h1
    · rw [Memory.write, if_pos h1]
      cases hv : isZero F v
      · rw [if_neg Bool.false_ne_true, read_cons]; simp only [eq_comm]
      · by_cases hk : k = i
        · rw [if_pos rfl, if_pos hk, hk, read_cons, if_neg h1.ne', absent i h1.le, (isZero_iff v).1 hv]
        · rw [if_pos rfl, if_neg hk]
    · rw [Memory.write, if_neg (lt_irrefl i), if_pos rfl]
      by_cases hk : k = i
      · subst hk
        cases hv : isZero F v
        · simp [read_cons]
        · rw [if_pos rfl, if_pos rfl, absent k le_rfl, (isZero_iff v).1 hv]
      · cases hv : isZero F v <;> simp [read_cons, hk, Ne.symm hk]
    · rw [Memory.write, if_neg h1.not_gt, if_neg h1.ne', read_cons, ih (wf_tail h), read_cons]
      by_cases hk : k = i
      · subst hk; simp [h1.ne]
      · simp [hk]

theorem read_write_same {m : Memory N} (h : m.wf F) (i : Nat) (v : N) : (m.write F i v).read F i = v := by
  rw [read_write h, if_pos rfl]

theorem read_write_other {m : Memory N} (h : m.wf F) {i k : Nat} (v : N) (hk : k ≠ i) :
    (m.write F i v).read F k = m.read F k := by
  rw [read_write h, if_neg hk]

/-- Storing the same sample twice leaves what storing it once leaves. -/
theorem write_write {m : Memory N} (h : m.wf F) (i : Nat) (v : N) :
    (m.write F i v).write F i v = m.write F i v := by
  induction m with
  | nil => cases hv : isZero F v <;> simp [Memory.write, hv]
  | cons d m ih =>
    obtain ⟨j, w⟩ := d
    rcases lt_trichotomy i j with h1 | rfl | h1
    · cases hv : isZero F v <;> simp [Memory.write, h1, hv]
    · cases hv : isZero F v
      · simp [Memory.write, hv]
      · cases m with
        | nil => simp [Memory.write, hv]
        | cons c m =>
          have := wf_head_lt h c (List.mem_cons_self ..)
          simp_all [Memory.write]
    · simp [Memory.write, h1.not_gt, h1.ne', ih (wf_tail h)]

end Sys2Proof.Machine
end

