-- ==== Sys2Proof/Laws/Num.lean ====
section
/-! SUPPORT. Sys2Proof/Laws/Num.lean: what the operations of an exact format can do: the circular remainder, the split into
integer and fraction, the single wrap. -/

namespace Sys2Proof.Machine

variable {N : Type} [Field N] [LinearOrder N] [IsStrictOrderedRing N] [FloorRing N] {twoPi : N} {sin : N → N}

/-! ## The operations -/

@[simp] theorem exact_zero : (exactFormat twoPi sin).zero = 0 := rfl
@[simp] theorem exact_half : (exactFormat twoPi sin).half = 1 / 2 := rfl
@[simp] theorem exact_one : (exactFormat twoPi sin).one = 1 := rfl
@[simp] theorem exact_twoPi : (exactFormat twoPi sin).twoPi = twoPi := rfl
@[simp] theorem exact_add (a b : N) : (exactFormat twoPi sin).add a b = a + b := rfl
@[simp] theorem exact_sub (a b : N) : (exactFormat twoPi sin).sub a b = a - b := rfl
@[simp] theorem exact_mul (a b : N) : (exactFormat twoPi sin).mul a b = a * b := rfl
@[simp] theorem exact_div (a b : N) : (exactFormat twoPi sin).div a b = a / b := rfl
@[simp] theorem exact_sin (a : N) : (exactFormat twoPi sin).sin a = sin a := rfl
@[simp] theorem exact_floor (a : N) : (exactFormat twoPi sin).floor a = ⌊a⌋ := rfl
@[simp] theorem exact_ofInt (n : Int) : (exactFormat twoPi sin).ofInt n = (n : N) := rfl
@[simp] theorem exact_ceilToInt (a : N) : (exactFormat twoPi sin).ceilToInt a = ⌈a⌉ := rfl

/-- The comparison `a > b`. -/
@[simp] theorem exact_gt_iff (a b : N) : (exactFormat twoPi sin).gt a b = true ↔ b < a := decide_eq_true_iff

@[simp] theorem exact_gt_false_iff (a b : N) : (exactFormat twoPi sin).gt a b = false ↔ a ≤ b := by
  simp [exactFormat]

@[simp] theorem exact_isZero (a : N) : isZero (exactFormat twoPi sin) a = true ↔ a = 0 :=
  isZero_iff a

theorem exact_fracPart (a : N) : fracPart (exactFormat twoPi sin) a = Int.fract a := rfl

/-! ## `mod_cap` -/

/-- `mod_cap(a, n)` lies in `[0, n)`. -/
theorem modCap_nonneg (a : N) {n : Nat} (hn : 0 < n) : 0 ≤ (exactFormat twoPi sin).modCap a n := by
  have h : (0 : N) < n := by exact_mod_cast hn
  have := (le_div_iff₀ h).1 (Int.floor_le (a / (n : N)))
  change 0 ≤ a - n * (⌊a / (n : N)⌋ : N)
  linarith [mul_comm ((⌊a / (n : N)⌋ : Int) : N) (n : N)]

theorem modCap_lt (a : N) {n : Nat} (hn : 0 < n) : (exactFormat twoPi sin).modCap a n < n := by
  have h : (0 : N) < n := by exact_mod_cast hn
  have := (div_lt_iff₀ h).1 (Int.lt_floor_add_one (a / (n : N)))
  change a - n * (⌊a / (n : N)⌋ : N) < n
  linarith [mul_comm ((⌊a / (n : N)⌋ : Int) : N) (n : N)]

/-- Whole turns of the buffer do not matter. -/
theorem modCap_add_mul (a : N) {n : Nat} (hn : 0 < n) (k : Int) :
    (exactFormat twoPi sin).modCap (a + k * n) n = (exactFormat twoPi sin).modCap a n := by
  have h : (n : N) ≠ 0 := by exact_mod_cast hn.ne'
  have e : (a + k * n) / (n : N) = a / n + k := by field_simp
  change a + k * n - n * (⌊(a + k * n) / (n : N)⌋ : N) = a - n * (⌊a / (n : N)⌋ : N)
  rw [e, Int.floor_add_intCast]
  push_cast
  ring

/-- `a - mod_cap(a, n)` is a whole number of turns of the buffer. -/
theorem modCap_eq_sub (a : N) (n : Nat) : ∃ k : Int, a = (exactFormat twoPi sin).modCap a n + k * n :=
  ⟨⌊a / (n : N)⌋, by change a = a - n * (⌊a / (n : N)⌋ : N) + _; ring⟩

/-- Uniqueness: the only value of `[0, n)` a whole number of turns away. -/
theorem modCap_unique {a r : N} {n : Nat} (hn : 0 < n) (h0 : 0 ≤ r) (h1 : r < n) (k : Int)
    (h : a = r + k * n) : (exactFormat twoPi sin).modCap a n = r := by
  have hq : (0 : N) < n := by exact_mod_cast hn
  have e : ⌊r / (n : N)⌋ = 0 := Int.floor_eq_zero_iff.2 ⟨div_nonneg h0 hq.le, (div_lt_one hq).2 h1⟩
  rw [h, modCap_add_mul r hn k]
  change r - n * (⌊r / (n : N)⌋ : N) = r
  simp [e]

/-! ## The wrap -/

/-- The wrap takes off one whole turn or nothing. -/
theorem exact_wrapOnce (p : N) :
    wrapOnce (exactFormat twoPi sin) p = if twoPi < p then p - twoPi else p := by
  simp [wrapOnce]

/-- A phase less than two turns comes back into `[0, TWO_PI]`. -/
theorem wrapOnce_mem {p : N} (h0 : 0 ≤ p) (h2 : p ≤ 2 * twoPi) :
    0 ≤ wrapOnce (exactFormat twoPi sin) p ∧ wrapOnce (exactFormat twoPi sin) p ≤ twoPi := by
  rw [exact_wrapOnce]
  split <;> constructor <;> linarith

end Sys2Proof.Machine
end

