-- ==== Sys2Proof/Laws/State.lean ====
section
/-! SUPPORT. Sys2Proof/Laws/State.lean: one lemma per field of each named update, true by definition, so that no later
proof unfolds an update. -/

namespace Sys2Proof.Machine

variable {N : Type} (F : NumFormat N)

section Sequencer
variable (s : State N) (k : FStep)
@[simp] theorem setFStep_config : (s.setFStep k).config = s.config := rfl
@[simp] theorem setFStep_osc : (s.setFStep k).osc = s.osc := rfl
@[simp] theorem setFStep_dl : (s.setFStep k).dl = s.dl := rfl
@[simp] theorem setFStep_gain : (s.setFStep k).eng.gain = s.eng.gain := rfl
@[simp] theorem setFStep_rate : (s.setFStep k).eng.rate = s.eng.rate := rfl
@[simp] theorem setFStep_depth : (s.setFStep k).eng.depth = s.eng.depth := rfl
@[simp] theorem setFStep_active : (s.setFStep k).eng.active = s.eng.active := rfl
@[simp] theorem setFStep_fstep : (s.setFStep k).eng.fstep = k := rfl
@[simp] theorem setFStep_x : (s.setFStep k).eng.x = s.eng.x := rfl
@[simp] theorem setFStep_wet : (s.setFStep k).eng.wet = s.eng.wet := rfl
@[simp] theorem setFStep_audio : (s.setFStep k).audio = s.audio := rfl
@[simp] theorem setFStep_control : (s.setFStep k).control = s.control := rfl
@[simp] theorem setFStep_schedule : (s.setFStep k).schedule = s.schedule := rfl
end Sequencer

section Delivery
variable (s : State N) (p : Port N) (r : N)
@[simp] theorem deliver_pending : (p.deliver r).pending = p.pending := rfl
@[simp] theorem deliver_val : (p.deliver r).val = p.val := rfl
@[simp] theorem deliver_results : (p.deliver r).results = p.results ++ [r] := rfl
@[simp] theorem deliverAudio_config : (s.deliverAudio r).config = s.config := rfl
@[simp] theorem deliverAudio_osc : (s.deliverAudio r).osc = s.osc := rfl
@[simp] theorem deliverAudio_dl : (s.deliverAudio r).dl = s.dl := rfl
@[simp] theorem deliverAudio_eng : (s.deliverAudio r).eng = s.eng := rfl
@[simp] theorem deliverAudio_audio : (s.deliverAudio r).audio = s.audio.deliver r := rfl
@[simp] theorem deliverAudio_control : (s.deliverAudio r).control = s.control := rfl
@[simp] theorem deliverAudio_schedule : (s.deliverAudio r).schedule = s.schedule := rfl
@[simp] theorem deliverControl_config : (s.deliverControl r).config = s.config := rfl
@[simp] theorem deliverControl_osc : (s.deliverControl r).osc = s.osc := rfl
@[simp] theorem deliverControl_dl : (s.deliverControl r).dl = s.dl := rfl
@[simp] theorem deliverControl_eng : (s.deliverControl r).eng = s.eng := rfl
@[simp] theorem deliverControl_audio : (s.deliverControl r).audio = s.audio := rfl
@[simp] theorem deliverControl_control : (s.deliverControl r).control = s.control.deliver r := rfl
@[simp] theorem deliverControl_schedule : (s.deliverControl r).schedule = s.schedule := rfl
end Delivery

section Ports
variable (s : State N) (a : Agent) (p : Port N) (t : Txn N) (rest : List (Txn N))
@[simp] theorem take_pending : (p.take t rest).pending = rest := rfl
@[simp] theorem take_val : (p.take t rest).val = t.val := rfl
@[simp] theorem take_results : (p.take t rest).results = p.results := rfl
@[simp] theorem port_audio : s.port .audio = s.audio := rfl
@[simp] theorem port_control : s.port .control = s.control := rfl
@[simp] theorem setPort_config : (s.setPort a p).config = s.config := by cases a <;> rfl
@[simp] theorem setPort_osc : (s.setPort a p).osc = s.osc := by cases a <;> rfl
@[simp] theorem setPort_dl : (s.setPort a p).dl = s.dl := by cases a <;> rfl
@[simp] theorem setPort_eng : (s.setPort a p).eng = s.eng := by cases a <;> rfl
@[simp] theorem setPort_schedule : (s.setPort a p).schedule = s.schedule := by cases a <;> rfl
@[simp] theorem setPort_audio : (s.setPort .audio p).audio = p := rfl
@[simp] theorem setPort_audio_control : (s.setPort .audio p).control = s.control := rfl
@[simp] theorem setPort_control : (s.setPort .control p).control = p := rfl
@[simp] theorem setPort_control_audio : (s.setPort .control p).audio = s.audio := rfl
end Ports

section Oscillator
variable (s : State N) (o : Oscillator N)
@[simp] theorem resample_sampleRate : (o.resample F).sampleRate = o.sampleRate := rfl
@[simp] theorem resample_frequency : (o.resample F).frequency = o.frequency := rfl
@[simp] theorem resample_amplitude : (o.resample F).amplitude = o.amplitude := rfl
@[simp] theorem resample_phase : (o.resample F).phase = o.phase := rfl
@[simp] theorem resample_waveform : (o.resample F).waveform = o.waveform := rfl
@[simp] theorem resample_sample : (o.resample F).sample = F.mul o.amplitude (shape F o.waveform o.phase) := rfl
@[simp] theorem turn_sampleRate : (o.turn F).sampleRate = o.sampleRate := rfl
@[simp] theorem turn_frequency : (o.turn F).frequency = o.frequency := rfl
@[simp] theorem turn_amplitude : (o.turn F).amplitude = o.amplitude := rfl
@[simp] theorem turn_waveform : (o.turn F).waveform = o.waveform := rfl
@[simp] theorem turn_sample : (o.turn F).sample = o.sample := rfl
@[simp] theorem oscSample_config : (oscSample F s).config = s.config := rfl
@[simp] theorem oscSample_osc : (oscSample F s).osc = s.osc.resample F := rfl
@[simp] theorem oscSample_dl : (oscSample F s).dl = s.dl := rfl
@[simp] theorem oscSample_eng : (oscSample F s).eng = s.eng := rfl
@[simp] theorem oscSample_audio : (oscSample F s).audio = s.audio := rfl
@[simp] theorem oscSample_control : (oscSample F s).control = s.control := rfl
@[simp] theorem oscSample_schedule : (oscSample F s).schedule = s.schedule := rfl
end Oscillator

section DelayLine
variable (d : DelayLine N) (a : Int) (v : N) (n : Nat)
@[simp] theorem memWrite_capacity : (d.memWrite F a v).capacity = d.capacity := rfl
@[simp] theorem memWrite_writeIndex : (d.memWrite F a v).writeIndex = d.writeIndex := rfl
@[simp] theorem memWrite_readDistance : (d.memWrite F a v).readDistance = d.readDistance := rfl
@[simp] theorem memWrite_buffer : (d.memWrite F a v).buffer = d.buffer.write F (d.cell a) v := rfl
@[simp] theorem store_capacity : (d.store F v).capacity = d.capacity := rfl
@[simp] theorem store_writeIndex : (d.store F v).writeIndex = d.writeIndex := rfl
@[simp] theorem store_readDistance : (d.store F v).readDistance = d.readDistance := rfl
@[simp] theorem store_buffer : (d.store F v).buffer = d.buffer.write F (d.cell d.writeIndex) v := rfl
@[simp] theorem refill_capacity : (d.refill n).capacity = n := rfl
@[simp] theorem refill_writeIndex : (d.refill n).writeIndex = 0 := rfl
@[simp] theorem refill_readDistance : (d.refill n).readDistance = d.readDistance := rfl
@[simp] theorem refill_buffer : (d.refill n).buffer = [] := rfl
@[simp] theorem advance_capacity : d.advance.capacity = d.capacity := rfl
@[simp] theorem advance_writeIndex : d.advance.writeIndex = (d.writeIndex + 1) % d.capacity := rfl
@[simp] theorem advance_readDistance : d.advance.readDistance = d.readDistance := rfl
@[simp] theorem advance_buffer : d.advance.buffer = d.buffer := rfl
end DelayLine

section Parameters
variable (s : State N) (id : ParamId) (v : N)
@[simp] theorem writeParam_config : (writeParam id v s).config = s.config := by cases id <;> rfl
@[simp] theorem writeParam_dl : (writeParam id v s).dl = s.dl := by cases id <;> rfl
@[simp] theorem writeParam_audio : (writeParam id v s).audio = s.audio := by cases id <;> rfl
@[simp] theorem writeParam_control : (writeParam id v s).control = s.control := by cases id <;> rfl
@[simp] theorem writeParam_schedule : (writeParam id v s).schedule = s.schedule := by cases id <;> rfl
@[simp] theorem writeParam_sampleRate : (writeParam id v s).osc.sampleRate = s.osc.sampleRate := by
  cases id <;> rfl
@[simp] theorem writeParam_phase : (writeParam id v s).osc.phase = s.osc.phase := by cases id <;> rfl
@[simp] theorem writeParam_waveform : (writeParam id v s).osc.waveform = s.osc.waveform := by
  cases id <;> rfl
@[simp] theorem writeParam_sample : (writeParam id v s).osc.sample = s.osc.sample := by cases id <;> rfl
@[simp] theorem writeParam_active : (writeParam id v s).eng.active = s.eng.active := by cases id <;> rfl
@[simp] theorem writeParam_fstep : (writeParam id v s).eng.fstep = s.eng.fstep := by cases id <;> rfl
@[simp] theorem writeParam_x : (writeParam id v s).eng.x = s.eng.x := by cases id <;> rfl
@[simp] theorem writeParam_wet : (writeParam id v s).eng.wet = s.eng.wet := by cases id <;> rfl
end Parameters

section Frame
variable (s : State N)
@[simp] theorem frameWrite_config : (frameWrite F s).config = s.config := rfl
@[simp] theorem frameWrite_osc : (frameWrite F s).osc = s.osc := rfl
@[simp] theorem frameWrite_dl : (frameWrite F s).dl = s.dl.store F (audioOperand s) := rfl
@[simp] theorem frameWrite_x : (frameWrite F s).eng.x = audioOperand s := rfl
@[simp] theorem frameWrite_active : (frameWrite F s).eng.active = s.eng.active := rfl
@[simp] theorem frameWrite_gain : (frameWrite F s).eng.gain = s.eng.gain := rfl
@[simp] theorem frameWrite_audio : (frameWrite F s).audio = s.audio := rfl
@[simp] theorem frameWrite_control : (frameWrite F s).control = s.control := rfl
@[simp] theorem frameDistance_config : (frameDistance F s).config = s.config := rfl
@[simp] theorem frameDistance_osc : (frameDistance F s).osc = s.osc := rfl
@[simp] theorem frameDistance_eng : (frameDistance F s).eng = s.eng := rfl
@[simp] theorem frameDistance_capacity : (frameDistance F s).dl.capacity = s.dl.capacity := rfl
@[simp] theorem frameDistance_writeIndex : (frameDistance F s).dl.writeIndex = s.dl.writeIndex := rfl
@[simp] theorem frameDistance_buffer : (frameDistance F s).dl.buffer = s.dl.buffer := rfl
@[simp] theorem frameDistance_readDistance :
    (frameDistance F s).dl.readDistance = F.add s.osc.sample s.config.baseOffset := rfl
@[simp] theorem frameDistance_audio : (frameDistance F s).audio = s.audio := rfl
@[simp] theorem frameDistance_control : (frameDistance F s).control = s.control := rfl
@[simp] theorem frameRead_config : (frameRead F s).config = s.config := rfl
@[simp] theorem frameRead_osc : (frameRead F s).osc = s.osc := rfl
@[simp] theorem frameRead_dl : (frameRead F s).dl = s.dl := rfl
@[simp] theorem frameRead_wet : (frameRead F s).eng.wet = s.dl.readSample F := rfl
@[simp] theorem frameRead_x : (frameRead F s).eng.x = s.eng.x := rfl
@[simp] theorem frameRead_active : (frameRead F s).eng.active = s.eng.active := rfl
@[simp] theorem frameRead_gain : (frameRead F s).eng.gain = s.eng.gain := rfl
@[simp] theorem frameRead_audio : (frameRead F s).audio = s.audio := rfl
@[simp] theorem frameRead_control : (frameRead F s).control = s.control := rfl
@[simp] theorem frameMix_config : (frameMix F s).config = s.config := rfl
@[simp] theorem frameMix_osc : (frameMix F s).osc = s.osc := rfl
@[simp] theorem frameMix_dl : (frameMix F s).dl = s.dl := rfl
@[simp] theorem frameMix_eng : (frameMix F s).eng = s.eng := rfl
@[simp] theorem frameMix_audio :
    (frameMix F s).audio = s.audio.deliver (mix F s.eng.gain s.eng.x s.eng.wet) := rfl
@[simp] theorem frameMix_control : (frameMix F s).control = s.control := rfl
@[simp] theorem frameTick_config : (frameTick s).config = s.config := rfl
@[simp] theorem frameTick_osc : (frameTick s).osc = s.osc := rfl
@[simp] theorem frameTick_dl : (frameTick s).dl = s.dl.advance := rfl
@[simp] theorem frameTick_eng : (frameTick s).eng = s.eng := rfl
@[simp] theorem frameTick_audio : (frameTick s).audio = s.audio := rfl
@[simp] theorem frameTick_control : (frameTick s).control = s.control := rfl
end Frame

end Sys2Proof.Machine
end

