-- ==== Sys2Proof/Laws/Ops.lean ====
section
/-! SUPPORT. Sys2Proof/Laws/Ops.lean: one lemma for each shared operation that says everything it can do. -/

namespace Sys2Proof.Machine

variable {N : Type} {F : NumFormat N}

/-! ## Sequencing -/

@[simp] theorem andThen_next (s : State N) (f : State N → ResultOn N) : andThen (.next s) f = f s := rfl
@[simp] theorem andThen_refused (r : Refusal) (f : State N → ResultOn N) :
    andThen (.refused r) f = .refused r := rfl

/-- `andThen` goes on exactly when both parts do. -/
theorem andThen_eq_next {o : ResultOn N} {f : State N → ResultOn N} {t : State N} :
    andThen o f = .next t ↔ ∃ s, o = .next s ∧ f s = .next t := by
  cases o with
  | next s => simp
  | fault r => exact r.casesOn
  | refused r => simp

/-! ## Cells -/

theorem cell_lt {d : DelayLine N} (h : 0 < d.capacity) (a : Int) : d.cell a < d.capacity := by
  have hz : (0 : Int) < (d.capacity : Int) := by exact_mod_cast h
  have h0 := Int.emod_nonneg a hz.ne'
  have h1 := Int.emod_lt_of_pos a hz
  rw [DelayLine.cell]
  omega

/-- An index below the capacity names its own cell. -/
theorem cell_of_lt {d : DelayLine N} {i : Nat} (h : i < d.capacity) : d.cell i = i := by
  rw [DelayLine.cell, Int.emod_eq_of_lt (by omega) (by omega)]
  simp

theorem cell_add_mul (d : DelayLine N) (a k : Int) : d.cell (a + k * d.capacity) = d.cell a := by
  rw [DelayLine.cell, DelayLine.cell, Int.add_mul_emod_self_right]

theorem memRead_congr {d : DelayLine N} {a b : Int} (h : d.cell a = d.cell b) :
    d.memRead F a = d.memRead F b := by rw [DelayLine.memRead, DelayLine.memRead, h]

/-- Read after write. -/
theorem memRead_memWrite {d : DelayLine N} (h : d.buffer.wf F) (a b : Int) (v : N) :
    (d.memWrite F a v).memRead F b = if d.cell b = d.cell a then v else d.memRead F b :=
  read_write h _ _ _

/-- The cell of the write head after a store, and every other cell. -/
theorem memRead_store {d : DelayLine N} (h : d.buffer.wf F) (v : N) (b : Int) :
    (d.store F v).memRead F b = if d.cell b = d.cell d.writeIndex then v else d.memRead F b :=
  read_write h _ _ _

@[simp] theorem memRead_advance (d : DelayLine N) (b : Int) : d.advance.memRead F b = d.memRead F b := rfl

@[simp] theorem memRead_refill (d : DelayLine N) (n : Nat) (b : Int) :
    (d.refill n).memRead F b = F.zero := rfl

/-! ## The DelayLine stays in order -/

theorem DelayLineInv.capacity_pos {d : DelayLine N} (h : DelayLineInv F d) : 0 < d.capacity :=
  lt_of_le_of_lt (Nat.zero_le _) h.index_lt

theorem store_inv {d : DelayLine N} (h : DelayLineInv F d) (v : N) : DelayLineInv F (d.store F v) where
  memory_wf := write_wf h.memory_wf _ _
  cells_lt := write_lt h.cells_lt (cell_lt h.capacity_pos _) v
  index_lt := h.index_lt

theorem advance_inv {d : DelayLine N} (h : DelayLineInv F d) : DelayLineInv F d.advance where
  memory_wf := h.memory_wf
  cells_lt := h.cells_lt
  index_lt := Nat.mod_lt _ h.capacity_pos

theorem refill_inv (d : DelayLine N) {n : Nat} (h : 0 < n) : DelayLineInv F (d.refill n) where
  memory_wf := ⟨List.Pairwise.nil, by simp⟩
  cells_lt := by simp
  index_lt := h

theorem setDistance_inv {d : DelayLine N} (h : DelayLineInv F d) (v : N) :
    DelayLineInv F { d with readDistance := v } := ⟨h.memory_wf, h.cells_lt, h.index_lt⟩

/-! ## Reconfiguration and the phase advance -/

/-- Reconfiguration goes on exactly when the engine is inactive and the rate has a buffer. -/
theorem reconfigure_eq_next {rate : N} {s t : State N} :
    reconfigure F rate s = .next t ↔
      s.eng.active = false ∧ 1 ≤ capacityFor F s.config rate ∧
        t = { s with dl := s.dl.refill (capacityFor F s.config rate).toNat } := by
  rw [reconfigure]
  cases s.eng.active with
  | true => simp
  | false =>
    by_cases h : capacityFor F s.config rate < 1
    · simp [h]
    · simp [h, not_lt.1 h, eq_comm]

/-- Where reconfiguration is refused. -/
theorem reconfigure_eq_refused {rate : N} {s : State N} {r : Refusal} :
    reconfigure F rate s = .refused r ↔
      (r = .reconfigureWhileActive ∧ s.eng.active = true) ∨
      (r = .zeroCapacity ∧ s.eng.active = false ∧ capacityFor F s.config rate < 1) := by
  rw [reconfigure]
  cases s.eng.active with
  | true => simp [eq_comm]
  | false => by_cases h : capacityFor F s.config rate < 1 <;> simp [h, eq_comm]

/-- The phase advance goes on exactly when the sample rate is not `0`. -/
theorem oscAdvance_eq_next {s t : State N} :
    oscAdvance F s = .next t ↔ s.osc.sampleRate ≠ F.zero ∧ t = { s with osc := s.osc.turn F } := by
  rw [oscAdvance, ← isZero_false_iff]
  cases isZero F s.osc.sampleRate <;> simp [eq_comm]

/-- Where the phase advance is refused. -/
theorem oscAdvance_eq_refused {s : State N} {r : Refusal} :
    oscAdvance F s = .refused r ↔ r = .divideByZero ∧ s.osc.sampleRate = F.zero := by
  rw [oscAdvance, ← isZero_iff]
  cases isZero F s.osc.sampleRate <;> simp [eq_comm]

/-- `OSC.TICK` with a sample rate other than `0`. -/
theorem oscTickOn_eq {s : State N} (h : s.osc.sampleRate ≠ F.zero) :
    oscTickOn F s = .next { s with osc := (s.osc.resample F).turn F } :=
  oscAdvance_eq_next.2 ⟨h, rfl⟩

/-! ## The read position (R104) in an exact format -/

section Exact
variable {K : Type} [Field K] [LinearOrder K] [IsStrictOrderedRing K] [FloorRing K] {twoPi : K} {sin : K → K}

theorem readPosition_nonneg {d : DelayLine K} (h : 0 < d.capacity) :
    0 ≤ d.readPosition (exactFormat twoPi sin) := modCap_nonneg _ h

theorem readPosition_lt {d : DelayLine K} (h : 0 < d.capacity) :
    d.readPosition (exactFormat twoPi sin) < d.capacity := modCap_lt _ h

theorem olderTap_nonneg {d : DelayLine K} (h : 0 < d.capacity) : 0 ≤ d.olderTap (exactFormat twoPi sin) :=
  Int.floor_nonneg.2 (readPosition_nonneg h)

theorem olderTap_lt {d : DelayLine K} (h : 0 < d.capacity) :
    d.olderTap (exactFormat twoPi sin) < d.capacity :=
  Int.floor_lt.2 (by exact_mod_cast readPosition_lt (twoPi := twoPi) (sin := sin) h)

/-- The read position's integer part and fraction, from any whole number of turns and split of `w - d`. -/
theorem read_split {d : DelayLine K} (h : 0 < d.capacity) {i k : Int} {f : K} (h0 : 0 ≤ i)
    (h1 : i < d.capacity) (f0 : 0 ≤ f) (f1 : f < 1)
    (e : (d.writeIndex : K) - d.readDistance = i + f + k * d.capacity) :
    d.olderTap (exactFormat twoPi sin) = i ∧ d.readFraction (exactFormat twoPi sin) = f := by
  have p : d.readPosition (exactFormat twoPi sin) = i + f := by
    refine modCap_unique h ?_ ?_ k ?_
    · have : (0 : K) ≤ i := by exact_mod_cast h0
      linarith
    · have : (i : K) + 1 ≤ d.capacity := by exact_mod_cast h1
      linarith
    · simpa using e
  have fl : ⌊(i : K) + f⌋ = i := by
    rw [Int.floor_intCast_add, Int.floor_eq_zero_iff.2 ⟨f0, f1⟩, add_zero]
  constructor
  · rw [DelayLine.olderTap, p, exact_floor, fl]
  · rw [DelayLine.readFraction, p, exact_fracPart, Int.fract, fl]; ring

/-- The interpolated sample, written out. -/
theorem exact_interpolate (f a b : K) :
    interpolate (exactFormat twoPi sin) f a b = (1 - f) * a + f * b := rfl

end Exact

/-! ## The frame -/

/-- Every part of a frame but acceptance and S6 goes on from every state. -/
theorem frameOn_cases (F : NumFormat N) (s : State N) :
    (s.eng.fstep = .idle ∧ frameOn F s = frameAccept s) ∨
    (s.eng.fstep = .s1 ∧ frameOn F s = .next ((frameWrite F s).setFStep .s2)) ∨
    (s.eng.fstep = .s2 ∧ frameOn F s = .next ((frameDistance F s).setFStep .s3)) ∨
    (s.eng.fstep = .s3 ∧ frameOn F s = .next ((frameRead F s).setFStep .s4)) ∨
    (s.eng.fstep = .s4 ∧ frameOn F s = .next ((frameMix F s).setFStep .s5)) ∨
    (s.eng.fstep = .s5 ∧ frameOn F s = .next ((oscSample F s).setFStep .s6)) ∨
    (s.eng.fstep = .s6 ∧ frameOn F s = andThen (oscAdvance F s) fun t => .next (t.setFStep .s7)) ∨
    (s.eng.fstep = .s7 ∧ frameOn F s = .next ((frameTick s).setFStep .idle)) := by
  rw [frameOn]
  cases s.eng.fstep <;> simp

theorem frameAccept_eq_next {s t : State N} :
    frameAccept s = .next t ↔ s.eng.active = true ∧ t = s.setFStep .s1 := by
  rw [frameAccept]
  cases s.eng.active <;> simp [eq_comm]

/-- What a part of a frame that goes on has done. -/
theorem frameOn_next {s t : State N} (h : frameOn F s = .next t) :
    (s.eng.fstep = .idle ∧ s.eng.active = true ∧ t = s.setFStep .s1) ∨
    (s.eng.fstep = .s1 ∧ t = (frameWrite F s).setFStep .s2) ∨
    (s.eng.fstep = .s2 ∧ t = (frameDistance F s).setFStep .s3) ∨
    (s.eng.fstep = .s3 ∧ t = (frameRead F s).setFStep .s4) ∨
    (s.eng.fstep = .s4 ∧ t = (frameMix F s).setFStep .s5) ∨
    (s.eng.fstep = .s5 ∧ t = (oscSample F s).setFStep .s6) ∨
    (s.eng.fstep = .s6 ∧ s.osc.sampleRate ≠ F.zero ∧
      t = ({ s with osc := s.osc.turn F } : State N).setFStep .s7) ∨
    (s.eng.fstep = .s7 ∧ t = (frameTick s).setFStep .idle) := by
  rcases frameOn_cases F s with ⟨a, b⟩ | ⟨a, b⟩ | ⟨a, b⟩ | ⟨a, b⟩ | ⟨a, b⟩ | ⟨a, b⟩ | ⟨a, b⟩ | ⟨a, b⟩ <;>
    rw [b] at h
  · exact .inl ⟨a, frameAccept_eq_next.1 h⟩
  · injection h with h; exact .inr (.inl ⟨a, h.symm⟩)
  · injection h with h; exact .inr (.inr (.inl ⟨a, h.symm⟩))
  · injection h with h; exact .inr (.inr (.inr (.inl ⟨a, h.symm⟩)))
  · injection h with h; exact .inr (.inr (.inr (.inr (.inl ⟨a, h.symm⟩))))
  · injection h with h; exact .inr (.inr (.inr (.inr (.inr (.inl ⟨a, h.symm⟩)))))
  · obtain ⟨u, h1, h2⟩ := andThen_eq_next.1 h
    obtain ⟨h3, rfl⟩ := oscAdvance_eq_next.1 h1
    injection h2 with h2; exact .inr (.inr (.inr (.inr (.inr (.inr (.inl ⟨a, h3, h2.symm⟩))))))
  · injection h with h; exact .inr (.inr (.inr (.inr (.inr (.inr (.inr ⟨a, h.symm⟩))))))

end Sys2Proof.Machine
end

