-- ==== Sys2Proof/Laws/PerInstr.lean ====
section
/-! SUPPORT. Sys2Proof/Laws/PerInstr.lean: facts about every command as syntax, one lemma per constructor. -/

namespace Sys2Proof.Laws.Layout

/-- A command's word keeps the layout of R61: the bits `rsv` are `00` and the unit is not the reserved `11`. -/
def Statement (i : Instr) : Prop := rsvField (encode i) = 0b00#2 ∧ unitField (encode i) ≠ 0b11#2

theorem of_wordOf (n : Nat) (u : BitVec 2) (f : BitVec 4) (hu : u ≠ 0b11#2) :
    rsvField (wordOf n u f) = 0b00#2 ∧ unitField (wordOf n u f) ≠ 0b11#2 :=
  ⟨rsvField_wordOf n u f, by rwa [unitField_wordOf]⟩

theorem act : Statement .act := of_wordOf _ _ _ (by decide)
theorem deact : Statement .deact := of_wordOf _ _ _ (by decide)
theorem srate : Statement .srate := of_wordOf _ _ _ (by decide)
theorem getp (id : ParamId) : Statement (.getp id) := of_wordOf _ _ _ (by decide)
theorem setp (id : ParamId) : Statement (.setp id) := of_wordOf _ _ _ (by decide)
theorem frame : Statement .frame := of_wordOf _ _ _ (by decide)
theorem oscSetsr : Statement .oscSetsr := of_wordOf _ _ _ (by decide)
theorem oscSetf : Statement .oscSetf := of_wordOf _ _ _ (by decide)
theorem oscSeta : Statement .oscSeta := of_wordOf _ _ _ (by decide)
theorem oscSetw (kind : WaveKind) : Statement (.oscSetw kind) := of_wordOf _ _ _ (by decide)
theorem oscTick : Statement .oscTick := of_wordOf _ _ _ (by decide)
theorem oscGet : Statement .oscGet := of_wordOf _ _ _ (by decide)
theorem dlSetsr : Statement .dlSetsr := of_wordOf _ _ _ (by decide)
theorem dlWrite : Statement .dlWrite := of_wordOf _ _ _ (by decide)
theorem dlSetd : Statement .dlSetd := of_wordOf _ _ _ (by decide)
theorem dlRead : Statement .dlRead := of_wordOf _ _ _ (by decide)
theorem dlTick : Statement .dlTick := of_wordOf _ _ _ (by decide)

end Sys2Proof.Laws.Layout
end

