-- ==== Sys2Proof/Laws/Sine.lean ====
section
/-! SUPPORT. Sys2Proof/Laws/Sine.lean: the sine keeps `SineFacts` in the two formats the model names: the mathematical sine
over the real numbers, the reference instance of R5, and the sine of the plain-data state, whatever its free value is
(log entry 3). -/

namespace Sys2Proof.Machine

/-! ## The reference instance -/

/-- The values of `exactSine` are those of the mathematical sine. -/
theorem real_sin_exact (u v : ℝ) (h : exactSine u = some v) : Real.sin (2 * Real.pi * u) = v := by
  have s6 := Real.sin_pi_div_six
  have s2 := Real.sin_pi_div_two
  simp only [exactSine] at h
  split_ifs at h with h1 h2 h3 h4 h5 <;> cases h
  · rcases h1 with rfl | rfl
    · simp
    · rw [show 2 * Real.pi * (1 / 2) = Real.pi by ring, Real.sin_pi]
  · rw [h2, show 2 * Real.pi * (1 / 4) = Real.pi / 2 by ring, s2]
  · rw [h3, show 2 * Real.pi * (3 / 4) = Real.pi / 2 + Real.pi by ring, Real.sin_add_pi, s2]
  · rcases h4 with rfl | rfl
    · rw [show 2 * Real.pi * (1 / 12) = Real.pi / 6 by ring, s6]
    · rw [show 2 * Real.pi * (5 / 12) = Real.pi - Real.pi / 6 by ring, Real.sin_pi_sub, s6]
  · rcases h5 with rfl | rfl
    · rw [show 2 * Real.pi * (7 / 12) = Real.pi / 6 + Real.pi by ring, Real.sin_add_pi, s6]; norm_num
    · rw [show 2 * Real.pi * (11 / 12) = Real.pi - Real.pi / 6 + Real.pi by ring, Real.sin_add_pi,
        Real.sin_pi_sub, s6]; norm_num

theorem realSine_facts : SineFacts (2 * Real.pi) Real.sin :=
  ⟨by positivity, Real.sin_add_two_pi, Real.abs_sin_le_one, fun a b => by
    have := Real.lipschitzWith_sin.dist_le_mul a b
    simpa [Real.dist_eq] using this, real_sin_exact⟩

/-! ## The plain-data state -/

/-- The period, any whole number of times. -/
theorem sine_add_int {N : Type} [Field N] [LinearOrder N] {twoPi : N} {sin : N → N} (h : SineFacts twoPi sin)
    (a : N) (k : Int) : sin (a + k * twoPi) = sin a := by
  have up : ∀ (n : Nat) (x : N), sin (x + n * twoPi) = sin x := by
    intro n
    induction n with
    | zero => simp
    | succ n ih => intro x; rw [Nat.cast_succ, add_mul, one_mul, ← add_assoc, h.2.1, ih]
  rcases Int.eq_nat_or_neg k with ⟨n, rfl | rfl⟩
  · simpa using up n a
  · simpa using (up n (a + (-(n : Int) : Int) * twoPi)).symm

/-- The distance to the nearest crest moves no faster than the argument. -/
theorem crest_dist_le (x y : ℚ) : |x - (round x : ℚ)| ≤ |y - (round y : ℚ)| + |x - y| := by
  have h := round_le x (round y)
  have h2 : |x - (round y : ℚ)| ≤ |x - y| + |y - (round y : ℚ)| := abs_sub_le _ _ _
  linarith

theorem crest_dist_abs_le (x y : ℚ) :
    |(|x - (round x : ℚ)| - |y - (round y : ℚ)|)| ≤ |x - y| := by
  have h1 := crest_dist_le x y
  have h2 := crest_dist_le y x
  rw [abs_sub_comm y x] at h2
  rw [abs_le]; constructor <;> linarith

theorem twoPi_pos : 0 < Config.twoPi := by decide +kernel

theorem segmentSine_period (a : ℚ) : segmentSine (a + Config.twoPi) = segmentSine a := by
  have e : (a + Config.twoPi) / Config.twoPi - 1/4 = a / Config.twoPi - 1/4 + 1 := by
    rw [add_div, div_self twoPi_pos.ne']; ring
  simp only [segmentSine, e, round_add_one, Int.cast_add, Int.cast_one, add_sub_add_right_eq_sub]

theorem segmentSine_abs_le (a : ℚ) : |segmentSine a| ≤ 1 := by
  have h0 := abs_nonneg ((a / Config.twoPi - 1/4) - (round (a / Config.twoPi - 1/4 : ℚ) : ℚ))
  have h1 := abs_sub_round (a / Config.twoPi - 1/4 : ℚ)
  simp only [segmentSine]
  rw [abs_le]
  exact ⟨le_max_of_le_right (by linarith), max_le (min_le_of_left_le (by linarith)) (by linarith)⟩

/-- The segments rise by at most 6 over a turn, which is longer than 6. -/
theorem segmentSine_slope (a b : ℚ) : |segmentSine a - segmentSine b| ≤ |a - b| := by
  have h := crest_dist_abs_le (a / Config.twoPi - 1/4) (b / Config.twoPi - 1/4)
  have six : 6 * |a / Config.twoPi - b / Config.twoPi| ≤ |a - b| := by
    have e : |a / Config.twoPi - b / Config.twoPi| = |a - b| * (113 / 710) := by
      rw [← sub_div, abs_div, abs_of_pos twoPi_pos, Config.twoPi, div_div_eq_mul_div, mul_div_assoc]
    rw [e]; linarith [abs_nonneg (a - b)]
  rw [sub_sub_sub_cancel_right] at h
  refine le_trans ?_ six
  simp only [segmentSine]
  generalize |a / Config.twoPi - b / Config.twoPi| = z at *
  generalize |(a / Config.twoPi - 1/4) - (round (a / Config.twoPi - 1/4 : ℚ) : ℚ)| = r at *
  generalize |(b / Config.twoPi - 1/4) - (round (b / Config.twoPi - 1/4 : ℚ) : ℚ)| = q at *
  have h' := abs_le.1 h
  have hz : 0 ≤ z := (abs_nonneg _).trans h
  refine (abs_max_sub_max_le_max _ _ _ _).trans
    (max_le ((abs_min_sub_min_le_max _ _ _ _).trans (max_le ?_ ?_)) ?_) <;>
    rw [abs_le] <;> constructor <;> linarith

theorem segmentSine_exact (u v : ℚ) (h : exactSine u = some v) : segmentSine (Config.twoPi * u) = v := by
  simp only [exactSine] at h
  split_ifs at h with h1 h2 h3 h4 h5 <;> cases h
  · rcases h1 with rfl | rfl <;> decide +kernel
  · subst h2; decide +kernel
  · subst h3; decide +kernel
  · rcases h4 with rfl | rfl <;> decide +kernel
  · rcases h5 with rfl | rfl <;> decide +kernel

theorem segmentSine_facts : SineFacts Config.twoPi segmentSine :=
  ⟨twoPi_pos, segmentSine_period, segmentSine_abs_le, segmentSine_slope, segmentSine_exact⟩

/-- The free value keeps the limits, whichever function it is. -/
theorem freeSine_facts : SineFacts Config.twoPi freeSine := by
  have h : (freeSine = Config.sineFree ∧ SineFacts Config.twoPi Config.sineFree) ∨ freeSine = segmentSine := by
    unfold freeSine
    cases Config.sineFreeLawful with
    | some h => exact .inl ⟨rfl, h.down⟩
    | none => exact .inr rfl
  rcases h with ⟨e, h⟩ | e
  · rw [e]; exact h
  · rw [e]; exact segmentSine_facts

/-- At a rational value of the sine the free value is that value, so the case distinction changes nothing. -/
theorem rationalSine_eq (a : ℚ) : rationalSine a = freeSine a := by
  rw [rationalSine]
  cases h : exactSine (Int.fract (a / Config.twoPi)) with
  | none => rfl
  | some v =>
    have e := freeSine_facts.2.2.2.2 _ _ h
    rw [← sine_add_int freeSine_facts _ ⌊a / Config.twoPi⌋] at e
    have : Config.twoPi * Int.fract (a / Config.twoPi) + (⌊a / Config.twoPi⌋ : ℚ) * Config.twoPi = a := by
      rw [mul_comm, ← add_mul, Int.fract_add_floor, div_mul_cancel₀ _ twoPi_pos.ne']
    rw [this] at e
    exact e.symm

theorem rationalSine_facts : SineFacts Config.twoPi rationalSine := by
  rw [funext rationalSine_eq]; exact freeSine_facts

end Sys2Proof.Machine
end

