-- ==== Sys2Proof/Laws/Step.lean ====
section
/-! SUPPORT. Sys2Proof/Laws/Step.lean: what a step can do, said once, and the machine of the plain-data state as the machine
over its format. -/

namespace Sys2Proof.Machine

variable {N : Type} {F : NumFormat N}

/-! ## The plain-data machine -/

/-- `exec` is the meaning over the format of the plain-data state. -/
theorem exec_eq_execOn : exec = execOn rationalFormat := by
  funext i s
  cases i <;> rfl

/-- So is `step`. -/
theorem step_eq_stepOn : step = stepOn rationalFormat := by
  funext s
  rw [step, stepOn, exec_eq_execOn]

/-! ## Steps -/

/-- A command taken from a port goes on exactly when it decodes, belongs there, and its meaning goes on. -/
theorem issue_eq_next {ex : Instr → State N → ResultOn N} {a : Agent} {w : Word} {s t : State N} :
    issue ex a w s = .next t ↔ ∃ i, decode w = .ok i ∧ i.port = a ∧ ex i s = .next t := by
  rw [issue]
  cases decode w with
  | error e => simp
  | ok i => by_cases h : i.port = a <;> simp [h]

theorem issueNext_eq_next {ex : Instr → State N → ResultOn N} {a : Agent} {s t : State N} :
    issueNext ex a s = .next t ↔
      ((s.port a).pending = [] ∧ t = s) ∨
      ∃ x rest i, (s.port a).pending = x :: rest ∧ decode x.word = .ok i ∧ i.port = a ∧
        ex i (s.setPort a ((s.port a).take x rest)) = .next t := by
  rw [issueNext]
  cases (s.port a).pending with
  | nil => simp [eq_comm]
  | cons x rest =>
    simp only [issue_eq_next]
    constructor
    · rintro ⟨i, h1, h2, h3⟩
      exact .inr ⟨x, rest, i, rfl, h1, h2, h3⟩
    · rintro (⟨h, -⟩ | ⟨x', rest', i, h, h1, h2, h3⟩)
      · exact absurd h (List.cons_ne_nil _ _)
      · obtain ⟨rfl, rfl⟩ := List.cons.inj h
        exact ⟨i, h1, h2, h3⟩

/-- Setting the schedule leaves the ports. -/
@[simp] theorem port_schedule (s : State N) (rest : List Agent) (a : Agent) :
    ({ s with schedule := rest } : State N).port a = s.port a := by cases a <;> rfl

/-- A step whose turn finds a transaction to take issues it. -/
theorem stepOn_due {s : State N} {a : Agent} {x : Txn N} {more : List (Txn N)} {rest : List Agent}
    (h : Due s a x more rest) : stepOn F s = issue (execOn F) a x.word (taken s a x more rest) := by
  have issued : issueNext (execOn F) a { s with schedule := rest }
      = issue (execOn F) a x.word (taken s a x more rest) := by
    rw [issueNext, port_schedule, h.pending]; rfl
  rw [stepOn, stepWith, h.turn]
  cases a with
  | audio => exact (if_pos (h.idle rfl)).trans issued
  | control => exact issued

/-- The five things a step can be. -/
theorem stepOn_cases (F : NumFormat N) (s : State N) :
    (s.schedule = [] ∧ s.eng.fstep = .idle ∧ stepOn F s = .next s) ∨
    (s.schedule = [] ∧ s.eng.fstep ≠ .idle ∧ stepOn F s = execOn F .frame s) ∨
    (∃ rest, s.schedule = .audio :: rest ∧ s.eng.fstep ≠ .idle ∧
      stepOn F s = execOn F .frame { s with schedule := rest }) ∨
    (∃ a rest, s.schedule = a :: rest ∧ (a = .audio → s.eng.fstep = .idle) ∧ (s.port a).pending = [] ∧
      stepOn F s = .next { s with schedule := rest }) ∨
    (∃ a x more rest, Due s a x more rest ∧
      stepOn F s = issue (execOn F) a x.word (taken s a x more rest)) := by
  cases hs : s.schedule with
  | nil =>
    by_cases hf : s.eng.fstep = .idle
    · exact .inl ⟨rfl, hf, by rw [stepOn, stepWith, hs]; exact if_pos hf⟩
    · exact .inr (.inl ⟨rfl, hf, by rw [stepOn, stepWith, hs]; exact if_neg hf⟩)
  | cons a rest =>
    by_cases hf : a = .audio → s.eng.fstep = .idle
    · cases hp : (s.port a).pending with
      | nil =>
        refine .inr (.inr (.inr (.inl ⟨a, rest, rfl, hf, hp, ?_⟩)))
        have none : issueNext (execOn F) a { s with schedule := rest } = .next { s with schedule := rest } := by
          rw [issueNext, port_schedule, hp]
        rw [stepOn, stepWith, hs]
        cases a with
        | audio => exact (if_pos (hf rfl)).trans none
        | control => exact none
      | cons x more =>
        have due : Due s a x more rest := ⟨hs, hp, hf⟩
        exact .inr (.inr (.inr (.inr ⟨a, x, more, rest, due, stepOn_due due⟩)))
    · cases a with
      | control => simp at hf
      | audio =>
        have hf : s.eng.fstep ≠ .idle := by simpa using hf
        exact .inr (.inr (.inl ⟨rest, rfl, hf, by rw [stepOn, stepWith, hs]; exact if_neg hf⟩))

end Sys2Proof.Machine
end

