-- ==== Sys2Proof/Tests/Slice0.lean ====
section
/-! SUPPORT. Sys2Proof/Tests/Slice0.lean: the model's own tests. Every expected result is a vector or an example of the
spec, named in the docstring (V-… and P… are those of 95_test_vectors.md); on the plain-data state a phase is a fraction of
`TWO_PI`, and where the expected value is no rational number the test is over the real numbers. The last part shows, for
every statement with hypotheses, a format, a state and operands that meet them. -/

open Sys2Proof Sys2Proof.Machine

namespace Sys2Proof.Tests

/- One theorem at a time: many kernel evaluations at once take more threads than a small machine gives. -/
set_option Elab.async false

/-! ## Helpers -/

/-- The next state of an outcome, if it has one. -/
def nextOf (o : Result) : Option State :=
  match o with
  | .next t => some t
  | .fault _ => none
  | .refused _ => none

/-- The reason of a refusal, if the outcome is one. -/
def refusalOf (o : Result) : Option Refusal :=
  match o with
  | .next _ => none
  | .fault _ => none
  | .refused r => some r

/-- One field of the next state. -/
def look {α : Type} (f : State → α) (o : Result) : Option α := (nextOf o).map f

theorem next_of_isSome {o : Result} (h : (nextOf o).isSome = true) : ∃ t, o = .next t := by
  cases o with
  | next t => exact ⟨t, rfl⟩
  | fault r => cases r
  | refused r => simp [nextOf] at h

/-- The reset state of configuration T, in the active state. -/
def active : State := { State.reset with eng.active := true }

/-- State E of 95_test_vectors.md. -/
def stateE : State :=
  { State.reset with dl.buffer := [(0, 10), (1, 20), (2, 30), (3, 40)], dl.writeIndex := 3 }

/-- The format of the plain-data state is an exact one. -/
theorem rationalFormat_exact : rationalFormat = exactFormat Config.twoPi rationalSine := rfl

/-- An operand on the AUDIO port. -/
def withVal (v : ℚ) (s : State) : State := { s with audio.val := v }

/-- One command of agent `a` waiting on its port, and that agent due to act. -/
def presented (a : Agent) (w : Word) (v : ℚ) (s : State) : State :=
  ({ s with schedule := [a] } : State).setPort a { pending := [{ word := w, val := v }], val := 0, results := [] }

/-- Program P3 in its frame 4 before micro-step S3: the cells 8, 16, 24, 32, 40, distance 0.5, gain 0.5. -/
def p3Frame4 : State :=
  { active with
    dl.buffer := [(0, 8), (1, 16), (2, 24), (3, 32), (4, 40)], dl.writeIndex := 4, dl.readDistance := 1/2
    eng.gain := 1/2, eng.rate := 1, osc.frequency := 1, eng.x := 40, eng.fstep := .s3 }

/-- An oscillator at sample rate 4, frequency 1, amplitude 2 (V-O2) at the phase `TWO_PI * u`. -/
def oscAt (u : ℚ) : State :=
  { State.reset with osc.frequency := 1, osc.amplitude := 2, osc.phase := Config.twoPi * u }

/-! ## Words (V-E1 to V-E4), written out from R61 as `arg unit rsv fn` -/

theorem test_decode_eng_words :
    decode 0b00000000_00_00_0000#16 = .ok .act ∧ decode 0b00000000_00_00_0001#16 = .ok .deact ∧
    decode 0b00000000_00_00_0010#16 = .ok .srate ∧ decode 0b00000000_00_00_0011#16 = .ok (.getp .gain) ∧
    decode 0b00000001_00_00_0011#16 = .ok (.getp .rate) ∧ decode 0b00000010_00_00_0011#16 = .ok (.getp .depth) ∧
    decode 0b00000000_00_00_0100#16 = .ok (.setp .gain) ∧ decode 0b00000001_00_00_0100#16 = .ok (.setp .rate) ∧
    decode 0b00000010_00_00_0100#16 = .ok (.setp .depth) ∧ decode 0b00000000_00_00_0101#16 = .ok .frame := by
  decide

theorem test_decode_osc_words :
    decode 0b00000000_01_00_0000#16 = .ok .oscSetsr ∧ decode 0b00000000_01_00_0001#16 = .ok .oscSetf ∧
    decode 0b00000000_01_00_0010#16 = .ok .oscSeta ∧ decode 0b00000000_01_00_0011#16 = .ok (.oscSetw .sine) ∧
    decode 0b00000000_01_00_0100#16 = .ok .oscTick ∧ decode 0b00000000_01_00_0101#16 = .ok .oscGet := by
  decide

theorem test_decode_dl_words :
    decode 0b00000000_10_00_0000#16 = .ok .dlSetsr ∧ decode 0b00000000_10_00_0001#16 = .ok .dlWrite ∧
    decode 0b00000000_10_00_0010#16 = .ok .dlSetd ∧ decode 0b00000000_10_00_0011#16 = .ok .dlRead ∧
    decode 0b00000000_10_00_0100#16 = .ok .dlTick := by
  decide

/-- V-E2, V-E4. -/
theorem test_decode_unnamed_args :
    decode 0x0703#16 = .ok (.getp (.unknown 7)) ∧ decode 0xFF03#16 = .ok (.getp (.unknown 255)) ∧
    decode 0x0904#16 = .ok (.setp (.unknown 9)) ∧ decode 0x0304#16 = .ok (.setp (.unknown 3)) ∧
    decode 0x0143#16 = .ok (.oscSetw (.reserved 1)) ∧ decode 0xFF43#16 = .ok (.oscSetw (.reserved 255)) := by
  decide

/-- V-E3. -/
theorem test_decode_reserved_words :
    decode 0x00C0#16 = .error .reservedUnit ∧ decode 0x0010#16 = .error .reservedBits ∧
    decode 0x0025#16 = .error .reservedBits ∧ decode 0x0006#16 = .error .unassignedFn ∧
    decode 0x000F#16 = .error .unassignedFn ∧ decode 0x0046#16 = .error .unassignedFn ∧
    decode 0x0085#16 = .error .unassignedFn ∧ decode 0x0100#16 = .error .nonzeroArg ∧
    decode 0x0105#16 = .error .nonzeroArg ∧ decode 0xFF44#16 = .error .nonzeroArg := by
  decide

/-- V-E1, V-E2 read backwards. -/
theorem test_encode_words :
    encode (.setp .rate) = 0x0104#16 ∧ encode (.getp (.unknown 255)) = 0xFF03#16 ∧
    encode .frame = 0x0005#16 ∧ encode (.oscSetw .sine) = 0x0043#16 ∧ encode .oscGet = 0x0045#16 ∧
    encode .dlTick = 0x0084#16 := by
  decide

/-! ## WellFormed refuses: each check with a term that fails it -/

theorem test_wf_refuses_known_id_as_unknown : (Instr.getp (.unknown 2)).wf = false := by decide
theorem test_wf_refuses_id_above_255 : (Instr.setp (.unknown 256)).wf = false := by decide
theorem test_wf_refuses_sine_as_reserved : (Instr.oscSetw (.reserved 0)).wf = false := by decide
theorem test_wf_refuses_code_above_255 : (Instr.oscSetw (.reserved 256)).wf = false := by decide

/-! ## ENG commands -/

/-- V-S7. -/
theorem test_act : look (·.eng.active) (exec .act State.reset) = some true := by decide +kernel
theorem test_deact : look (·.eng.active) (exec .deact active) = some false := by decide +kernel

/-- V-S8, V-D12: capacity 16, index 0, the buffer gone, both components at the new rate. -/
theorem test_srate :
    look (fun t => (t.dl.capacity, t.dl.writeIndex, t.dl.buffer)) (exec .srate (withVal 8 stateE))
      = some (16, 0, []) := by decide +kernel
theorem test_srate_rate : look (·.osc.sampleRate) (exec .srate (withVal 8 stateE)) = some 8 := by decide +kernel

/-- V-S1, V-S2. -/
theorem test_getp_rate : look (·.control.results) (exec (.getp .rate) State.reset) = some [1/2] := by
  decide +kernel
theorem test_getp_unknown : look (·.control.results) (exec (.getp (.unknown 7)) State.reset) = some [0] := by
  decide +kernel

/-- V-S3, V-S4. -/
theorem test_setp_depth :
    look (fun t => (t.eng.depth, t.osc.amplitude, t.osc.frequency))
      (exec (.setp .depth) { State.reset with control.val := 1/4 }) = some (1/4, 1/4, 1/2) := by
  decide +kernel
theorem test_setp_unknown :
    look id (exec (.setp (.unknown 9)) { State.reset with control.val := 3 })
      = some { State.reset with control.val := 3 } := by decide +kernel

/-- P3, frame 4: S3 reads `p = 3.5`, `0.5 * 32 + 0.5 * 40 = 36`; S4 gives `0.5 * (20 + 18) = 19`. -/
theorem test_frame_s3 : look (·.eng.wet) (exec .frame p3Frame4) = some 36 := by decide +kernel
theorem test_frame_s4 :
    look (·.audio.results) (exec .frame { p3Frame4 with eng.wet := 36, eng.fstep := .s4 }) = some [19] := by
  decide +kernel

/-! ## OSC commands -/

/-- V-O2. -/
theorem test_osc_setsr : look (·.osc.sampleRate) (exec .oscSetsr (withVal 44100 State.reset)) = some 44100 := by
  decide +kernel
theorem test_osc_setf :
    look (fun t => (t.osc.frequency, t.eng.rate)) (exec .oscSetf (withVal 1 State.reset)) = some (1, 1/2) := by
  decide +kernel
theorem test_osc_seta :
    look (fun t => (t.osc.amplitude, t.eng.depth)) (exec .oscSeta (withVal 2 State.reset)) = some (2, 1/2) := by
  decide +kernel

/-- V-O16. -/
theorem test_osc_setw_reserved : refusalOf (exec (.oscSetw (.reserved 1)) State.reset) = some .reservedWaveform := by
  decide +kernel

/-- V-O4: sample `2 * sin(3*pi/2) = -2`, the new phase is exactly `2*pi` and stays. -/
theorem test_osc_tick_at_two_pi :
    look (fun t => (t.osc.sample, t.osc.phase)) (exec .oscTick (oscAt (3/4))) = some (-2, Config.twoPi) := by
  decide +kernel
/-- V-O5: from `2*pi`, sample `0`, one subtraction. -/
theorem test_osc_tick_wraps :
    look (fun t => (t.osc.sample, t.osc.phase)) (exec .oscTick (oscAt 1)) = some (0, Config.twoPi / 4) := by
  decide +kernel

/-- V-O14: the stale sample. -/
theorem test_osc_get :
    look (·.audio.results) (exec .oscGet { State.reset with osc.sample := 2, osc.amplitude := 0 }) = some [2] := by
  decide +kernel

/-! ## DL commands -/

/-- V-D12: the DelayLine only, the distance kept. V-S9: `ceil(4.5 * 1) = 5`. -/
theorem test_dl_setsr :
    look (fun t => (t.dl.capacity, t.dl.readDistance, t.osc.sampleRate))
      (exec .dlSetsr (withVal 8 { stateE with dl.readDistance := 5/4 })) = some (16, 5/4, 4) := by
  decide +kernel
theorem test_dl_setsr_rounds_up :
    look (·.dl.capacity) (exec .dlSetsr (withVal (9/2) { State.reset with config.maxDelaySeconds := 1 })) = some 5 := by
  decide +kernel

/-- V-D7; and storing `0` unlists the cell. -/
theorem test_dl_write :
    look (fun t => (t.dl.buffer, t.dl.writeIndex)) (exec .dlWrite (withVal 41 stateE))
      = some ([(0, 10), (1, 20), (2, 30), (3, 41)], 3) := by decide +kernel
theorem test_dl_write_zero :
    look (·.dl.buffer) (exec .dlWrite (withVal 0 stateE)) = some [(0, 10), (1, 20), (2, 30)] := by decide +kernel

/-- V-D14. -/
theorem test_dl_setd : look (·.dl.readDistance) (exec .dlSetd (withVal (-7/2) stateE)) = some (-7/2) := by
  decide +kernel

/-- V-D4: `0.25 * 20 + 0.75 * 30`. -/
theorem test_dl_read :
    look (·.audio.results) (exec .dlRead { stateE with dl.readDistance := 5/4 }) = some [55/2] := by decide +kernel
/-- V-D6: a negative distance wraps. -/
theorem test_dl_read_negative :
    look (·.audio.results) (exec .dlRead { stateE with dl.readDistance := -1/2 }) = some [20] := by decide +kernel

/-- V-D8. -/
theorem test_dl_tick : look (·.dl.writeIndex) (exec .dlTick { stateE with dl.writeIndex := 7 }) = some 0 := by
  decide +kernel

/-! ## Over the real numbers, the reference instance of R5 -/

/-- V-C3: S5 at phase `pi/4` with the depth `0.5` gives `0.5 * sin(pi/4) = sqrt(2)/4`. -/
theorem test_real_sample (s : State ℝ) (hf : s.eng.fstep = .s5) (ha : s.osc.amplitude = 1 / 2)
    (hp : s.osc.phase = Real.pi / 4) :
    ∃ t, execOn (exactFormat (2 * Real.pi) Real.sin) .frame s = .next t ∧ t.osc.sample = √2 / 4 := by
  refine ⟨(oscSample (exactFormat (2 * Real.pi) Real.sin) s).setFStep .s6, by simp only [execOn, frameOn, hf], ?_⟩
  simp only [setFStep_osc, oscSample_osc, resample_sample, exact_mul, ha, hp]
  change 1 / 2 * Real.sin (Real.pi / 4) = _
  rw [Real.sin_pi_div_four]; ring

/-- P2, frame 2: at distance `1 + sqrt(2)/4` with the cells 3, -1 around the position, the read is `sqrt(2) - 1`. -/
theorem test_real_read :
    DelayLine.readSample (exactFormat (2 * Real.pi) Real.sin)
      { capacity := 8, writeIndex := 2, readDistance := 1 + √2 / 4, buffer := [(0, 3), (1, -1), (2, 4)] }
      = √2 - 1 := by
  have h1 : √2 < 2 := by rw [Real.sqrt_lt' two_pos]; norm_num
  have h0 : 0 < √2 := Real.sqrt_pos.2 two_pos
  have sq : √2 * √2 = 2 := Real.mul_self_sqrt (by norm_num)
  obtain ⟨e1, e2⟩ := read_split (twoPi := 2 * Real.pi) (sin := Real.sin) (i := 0) (k := 0) (f := 1 - √2 / 4)
    (d := { capacity := 8, writeIndex := 2, readDistance := 1 + √2 / 4, buffer := [(0, 3), (1, -1), (2, 4)] })
    (by decide) le_rfl (by decide) (by linarith) (by linarith) (by push_cast; ring)
  rw [DelayLine.readSample, DelayLine.newerTap, exact_interpolate, e1, e2]
  change (1 - (1 - √2 / 4)) * 3 + (1 - √2 / 4) * (-1) = _
  ring

/-! ## Steps -/

/-- V-E3, V-E5, V-F4: the three refusals a taken word can meet first. -/
theorem test_step_reserved : refusalOf (step (presented .audio 0x0105#16 0 active)) = some .reservedEncoding := by
  decide +kernel
theorem test_step_wrong_port :
    refusalOf (step (presented .control 0x0005#16 0 active)) = some .wrongPort ∧
    refusalOf (step (presented .audio 0x0104#16 0 active)) = some .wrongPort := by decide +kernel
theorem test_step_frame_inactive :
    refusalOf (step (presented .audio 0x0005#16 1 State.reset)) = some .frameWhileInactive := by decide +kernel

/-- P6: a CONTROL command falls inside a frame. -/
theorem test_step_control_inside_a_frame :
    look (fun t => (t.eng.gain, t.eng.fstep)) (step (presented .control 0x0004#16 0 p3Frame4)) = some (0, .s3) := by
  decide +kernel

/-- R57: with nothing left in the schedule a frame in progress goes on (P3, frame 4: from S3 to S4). -/
theorem test_step_frame_goes_on :
    look (fun t => (t.eng.fstep, t.eng.wet)) (step p3Frame4) = some (.s4, 36) := by decide +kernel

/-! ## Witnesses: the hypotheses of the statements can be met -/

theorem orderE : DelayLineInv rationalFormat stateE.dl := ⟨by decide +kernel, by decide +kernel, by decide +kernel⟩

theorem orderReset : DelayLineInv rationalFormat State.reset.dl := ⟨by decide +kernel, by decide +kernel, by decide +kernel⟩

/-- A presented command is due, on either port. -/
theorem due_presented (a : Agent) (w : Word) (v : ℚ) (s : State) (h : a = .audio → s.eng.fstep = .idle) :
    Due (presented a w v s) a { word := w, val := v } [] [] := by
  cases a
  · exact ⟨rfl, rfl, h⟩
  · exact ⟨rfl, rfl, fun hc => by cases hc⟩

theorem witness_DecodeOfEncodeIsTheCommand :
    (Instr.setp (.unknown 3)).wf = true ∧ (Instr.getp (.unknown 255)).wf = true ∧
    (Instr.oscSetw (.reserved 1)).wf = true ∧ (Instr.oscSetw (.reserved 255)).wf = true := by decide

theorem witness_EncodeOfDecodeIsTheWord : decode 0xFF04#16 = .ok (.setp (.unknown 255)) := by decide

theorem witness_ReservedEncodingsAreRefused :
    Due (presented .audio 0x00C0#16 0 State.reset) .audio { word := 0x00C0#16, val := 0 } [] [] ∧
    decode 0x00C0#16 = .error .reservedUnit :=
  ⟨due_presented _ _ _ _ fun _ => rfl, by decide⟩

theorem witness_StepRunsTheDecodedCommand :
    (Due (presented .audio 0x0082#16 7 active) .audio { word := 0x0082#16, val := 7 } [] [] ∧
      decode 0x0082#16 = .ok .dlSetd ∧ Instr.dlSetd.port = .audio) ∧
    (Due (presented .control 0x0204#16 7 p3Frame4) .control { word := 0x0204#16, val := 7 } [] [] ∧
      decode 0x0204#16 = .ok (.setp .depth) ∧ (Instr.setp .depth).port = .control) :=
  ⟨⟨due_presented _ _ _ _ fun _ => rfl, by decide, rfl⟩,
    ⟨due_presented _ _ _ _ (fun hc => by cases hc), by decide, rfl⟩⟩

/-- In AUDIO's turns, and with none; inside a frame before S3, five micro-steps from its end. -/
theorem witness_StepContinuesTheFrame :
    p3Frame4.eng.fstep ≠ .idle ∧ p3Frame4.osc.sampleRate ≠ rationalFormat.zero ∧ p3Frame4.schedule = [] ∧
    ({ p3Frame4 with schedule := List.replicate 5 .audio ++ [.control] } : State).schedule
      = List.replicate p3Frame4.eng.fstep.left .audio ++ [.control] := by
  decide +kernel

theorem witness_WrongPortIsRefused :
    Due (presented .control 0x0005#16 0 active) .control { word := 0x0005#16, val := 0 } [] [] ∧
    decode 0x0005#16 = .ok .frame ∧ Instr.frame.port ≠ .control :=
  ⟨due_presented _ _ _ _ (fun hc => by cases hc), by decide, by decide⟩

/-- An empty schedule; AUDIO's turn between frames; CONTROL's turn inside a frame. -/
theorem witness_BlockWaitsForCommands :
    (State.reset.schedule = [] ∧ State.reset.eng.fstep = .idle) ∧
    (({ State.reset with schedule := [.audio] } : State).port .audio).pending = [] ∧
    (({ p3Frame4 with schedule := [.control] } : State).port .control).pending = [] ∧ p3Frame4.eng.fstep ≠ .idle := by
  decide +kernel

/-- Each of the seven reasons of R157 is reached by a step; DivideByZero in a command, and in S6 with an empty schedule
and in AUDIO's turn. -/
theorem witness_StepRefusesOnlyForTheReasonsOfR157 :
    refusalOf (step (presented .audio 0x00C0#16 0 active)) = some .reservedEncoding ∧
    refusalOf (step (presented .control 0x0005#16 0 active)) = some .wrongPort ∧
    refusalOf (step (presented .audio 0x0005#16 0 State.reset)) = some .frameWhileInactive ∧
    refusalOf (step (presented .audio 0x0002#16 8 active)) = some .reconfigureWhileActive ∧
    refusalOf (step (presented .audio 0x0080#16 0 State.reset)) = some .zeroCapacity ∧
    refusalOf (step (presented .audio 0x0044#16 0 { active with osc.sampleRate := 0 })) = some .divideByZero ∧
    refusalOf (step { p3Frame4 with eng.fstep := .s6, osc.sampleRate := 0 }) = some .divideByZero ∧
    refusalOf (step { p3Frame4 with eng.fstep := .s6, osc.sampleRate := 0, schedule := [.audio] })
      = some .divideByZero ∧
    refusalOf (step (presented .audio 0x0143#16 0 active)) = some .reservedWaveform := by
  decide +kernel

/-- Both clauses at the boundary: no cell, one cell. -/
theorem witness_ResetLeavesTheTableOfR22 :
    (⌈(0 : ℚ) * 2⌉ < 1 ∧ 1 ≤ ⌈((1 : ℚ) / 10) * 2⌉) ∧ 1 ≤ ⌈Config.vectors.sr0 * Config.vectors.maxDelaySeconds⌉ := by
  decide +kernel

theorem witness_ResetMeetsTheInvariant : ConfigValid rationalFormat Config.vectors ∧ 0 < Config.twoPi := by decide +kernel

/-- A rate whose buffer has one cell. -/
theorem witness_SrateReconfiguresBothComponents :
    (withVal (1/10) stateE).audio.val = 1/10 ∧ stateE.eng.active = false ∧
    ((1 : Nat) : Int) = ⌈(1/10 : ℚ) * stateE.config.maxDelaySeconds⌉ ∧ 1 ≤ 1 := by decide +kernel

theorem witness_DlSetsrReconfiguresTheDelayLine :
    (withVal 8 stateE).audio.val = 8 ∧ stateE.eng.active = false ∧
    ((16 : Nat) : Int) = ⌈(8 : ℚ) * stateE.config.maxDelaySeconds⌉ ∧ 1 ≤ 16 := by decide +kernel

/-- Both clauses: active; inactive with a product of exactly 0. -/
theorem witness_ReconfigurationIsRefused :
    active.eng.active = true ∧ (withVal 0 State.reset).eng.active = false ∧
    ⌈(withVal 0 State.reset).audio.val * State.reset.config.maxDelaySeconds⌉ < 1 := by decide +kernel

theorem witness_SrateLeavesAPositiveRate :
    0 < stateE.config.maxDelaySeconds ∧ ∃ t, execOn (exactFormat Config.twoPi rationalSine) .srate (withVal (1/10) stateE) = .next t :=
  ⟨by decide +kernel, next_of_isSome (by decide +kernel)⟩

theorem witness_GetpDeliversTheParameter :
    (1 : ℚ) = State.reset.eng.gain ∧ (1/2 : ℚ) = State.reset.eng.rate ∧ (1/2 : ℚ) = State.reset.eng.depth ∧
    ∃ n, ParamId.unknown 3 = .unknown n :=
  ⟨by decide +kernel, by decide +kernel, by decide +kernel, 3, rfl⟩

theorem witness_SetpStoresAndForwards : ({ State.reset with control.val := -1 } : State).control.val = -1 := by
  decide +kernel

theorem witness_GetpReadsBackSetp : ParamId.gain = .gain ∨ ParamId.gain = .rate ∨ ParamId.gain = .depth := by decide

theorem witness_OscSettersStoreTheOperand : (withVal (-1) State.reset).audio.val = -1 := by decide +kernel

/-- At the boundary of the wrap, `q = TWO_PI`, where nothing is subtracted, and just above it; and the refused rate. -/
theorem witness_OscTickSamplesThenAdvances :
    Config.twoPi = rationalFormat.add (oscAt (3/4)).osc.phase (rationalFormat.div
      (rationalFormat.mul rationalFormat.twoPi (oscAt (3/4)).osc.frequency) (oscAt (3/4)).osc.sampleRate) ∧
    rationalFormat.gt (Config.twoPi * (5/4)) rationalFormat.twoPi = true ∧
    (oscAt 1).osc.sampleRate ≠ rationalFormat.zero ∧
    ({ oscAt 1 with osc.sampleRate := 0 } : State).osc.sampleRate = rationalFormat.zero := by
  decide +kernel

/-- Each listed phase, the reference instance beside the format of the plain-data state. -/
theorem witness_TickSampleWithinAmplitude :
    SineFacts Config.twoPi rationalSine ∧ SineFacts (2 * Real.pi) Real.sin ∧
    (∀ u ∈ [0, 1/12, 1/4, 5/12, 1/2, 7/12, 3/4, 11/12, 1], (oscAt u).osc.sampleRate ≠ 0 ∧
      (oscAt u).osc.phase = Config.twoPi * u) ∧ ∃ s : State ℝ, s.osc.sampleRate ≠ 0 :=
  ⟨rationalSine_facts, realSine_facts, by decide +kernel,
    State.resetWith (exactFormat (2 * Real.pi) Real.sin) { sr0 := 1, maxDelaySeconds := 1, baseOffset := 1 },
    one_ne_zero⟩

/-- At the upper end of the phase range, with a step and with S6. -/
theorem witness_TickKeepsThePhaseInTurn :
    0 < Config.twoPi ∧ PhaseInTurn rationalFormat (oscAt 1) ∧ FrequencyInRange rationalFormat (oscAt 1) ∧
    (∃ t, stepOn rationalFormat (oscAt 1) = .next t) ∧ ({ oscAt 1 with eng.fstep := .s6 } : State).eng.fstep = .s6 :=
  ⟨by decide +kernel, ⟨by decide +kernel, by decide +kernel⟩, ⟨by decide +kernel, by decide +kernel⟩, ⟨_, rfl⟩, rfl⟩

theorem witness_TicksHaveTheClosedForm :
    SineFacts Config.twoPi rationalSine ∧ (oscAt 0).osc.sampleRate ≠ 0 ∧
    Config.twoPi / 4 = Config.twoPi * (oscAt 0).osc.frequency / (oscAt 0).osc.sampleRate ∧ 0 < 1 :=
  ⟨rationalSine_facts, by decide +kernel, by decide +kernel, by decide⟩

/-- V-O6: sample rate 4, frequency 1, period 4. -/
theorem witness_SamplesArePeriodic :
    SineFacts Config.twoPi rationalSine ∧ 0 < 1 ∧ (oscAt 0).osc.sampleRate ≠ 0 ∧
    (oscAt 0).osc.sampleRate = (4 : Nat) * (oscAt 0).osc.frequency :=
  ⟨rationalSine_facts, by decide, by decide +kernel, by decide +kernel⟩

theorem witness_ConsecutiveSamplesAreClose :
    SineFacts Config.twoPi rationalSine ∧ (oscAt (3/4)).osc.sampleRate ≠ 0 :=
  ⟨rationalSine_facts, by decide +kernel⟩

theorem witness_ZeroAmplitudeReadsZero :
    ({ State.reset with osc.amplitude := 0 } : State).osc.sampleRate ≠ 0 ∧
    ({ State.reset with osc.amplitude := 0 } : State).osc.amplitude = 0 ∧ State.reset.osc.sample = 0 := by
  decide +kernel

theorem witness_DlWriteStoresAtTheWriteHead :
    DelayLineInv rationalFormat (withVal 41 stateE).dl ∧ (withVal 41 stateE).audio.val = 41 ∧ 7 < stateE.dl.capacity ∧
    7 ≠ stateE.dl.writeIndex :=
  ⟨orderE, by decide +kernel, by decide +kernel, by decide +kernel⟩

/-- V-D4, distance 3.5: `p = 7.5`, the newer cell wraps to 0. -/
theorem witness_DlReadInterpolates :
    let d : DelayLine ℚ := { stateE.dl with readDistance := 7/2 }
    (15/2 : ℚ) = rationalFormat.modCap
      (rationalFormat.sub (rationalFormat.ofInt d.writeIndex) d.readDistance) d.capacity ∧
    (7 : Int) = rationalFormat.floor (15/2) ∧ (1/2 : ℚ) = rationalFormat.sub (15/2) (rationalFormat.ofInt 7) := by
  decide +kernel

theorem witness_ReadTapsLieInTheBuffer : DelayLineInv rationalFormat stateE.dl := orderE

theorem witness_IntegralDistanceReadsOneCell :
    DelayLineInv rationalFormat ({ stateE with dl.readDistance := -1 } : State).dl ∧
    ({ stateE with dl.readDistance := -1 } : State).dl.readDistance = ((-1 : Int) : ℚ) :=
  ⟨⟨orderE.memory_wf, orderE.cells_lt, orderE.index_lt⟩, by decide +kernel⟩

theorem witness_FractionalDistanceInterpolates :
    DelayLineInv rationalFormat ({ stateE with dl.readDistance := 5/4 } : State).dl ∧ (0 : ℚ) ≤ 1/4 ∧ (1/4 : ℚ) < 1 ∧
    ({ stateE with dl.readDistance := 5/4 } : State).dl.readDistance = ((1 : Int) : ℚ) + 1/4 :=
  ⟨⟨orderE.memory_wf, orderE.cells_lt, orderE.index_lt⟩, by decide +kernel, by decide +kernel, by decide +kernel⟩

theorem witness_DistancesWrapAtTheCapacity : DelayLineInv rationalFormat stateE.dl := orderE

theorem witness_ReadsAndWritesAreIdempotent : DelayLineInv rationalFormat stateE.dl := orderE

/-- The longest run, at its two ends: the last sample written (`k = 0`) and the oldest. -/
theorem witness_WrittenRunReadsBack :
    DelayLineInv rationalFormat State.reset.dl ∧ ([1, 2, 3, 4, 5, 6, 7, 8] : List ℚ).length ≤ State.reset.dl.capacity ∧
    ([1, 2, 3, 4, 5, 6, 7, 8] : List ℚ).reverse[0]? = some 8 ∧
    ([1, 2, 3, 4, 5, 6, 7, 8] : List ℚ).reverse[7]? = some 1 :=
  ⟨orderReset, by decide +kernel, by decide +kernel, by decide +kernel⟩

theorem witness_CapacityIsTheLeastUpperInteger :
    (∃ t, execOn (exactFormat Config.twoPi rationalSine) .srate (withVal (1/10) stateE) = .next t) ∧
    (withVal (1/10) stateE).audio.val * stateE.config.maxDelaySeconds ≤ ((1 : Nat) : ℚ) ∧ 1 ≤ 1 :=
  ⟨next_of_isSome (by decide +kernel), by decide +kernel, by decide⟩

theorem witness_FrameIsAcceptedOnlyWhileActive :
    active.eng.fstep = .idle ∧ active.eng.active = true ∧ State.reset.eng.fstep = .idle ∧
    State.reset.eng.active = false := by decide +kernel

/-- Every micro-step, S6 with and without a sample rate. -/
theorem witness_FrameMicroSteps :
    (∀ k ∈ [FStep.s1, .s2, .s3, .s4, .s5, .s6, .s7], ({ p3Frame4 with eng.fstep := k } : State).eng.fstep = k) ∧
    p3Frame4.osc.sampleRate ≠ 0 ∧ ({ p3Frame4 with osc.sampleRate := 0 } : State).osc.sampleRate = 0 := by
  decide +kernel

/-- State E, active: a frame reads at distance 1, the cell 2. -/
def wetE : State := { stateE with eng.active := true }

/-- The hypotheses the whole-frame statements share. -/
theorem witness_wholeFrame :
    active.eng.fstep = .idle ∧ active.eng.active = true ∧ active.osc.sampleRate ≠ 0 := by decide +kernel

theorem witness_FrameRunsTheFixedSequence :
    active.eng.fstep = .idle ∧ active.eng.active = true ∧ active.osc.sampleRate ≠ 0 ∧ (withVal 1 active).audio.val = 1 ∧
    Config.twoPi / 8 = rationalFormat.add active.osc.phase (rationalFormat.div
      (rationalFormat.mul rationalFormat.twoPi active.osc.frequency) active.osc.sampleRate) := by decide +kernel

theorem witness_MixerAtGainZeroAndOne :
    active.eng.fstep = .idle ∧ active.eng.active = true ∧ active.osc.sampleRate ≠ 0 ∧ active.eng.gain = 1 ∧
    ({ active with eng.gain := 0 } : State).eng.gain = 0 ∧ wetE.eng.fstep = .idle ∧ wetE.eng.active = true ∧
    wetE.osc.sampleRate ≠ 0 ∧
    (30 : ℚ) = DelayLine.readSample (exactFormat Config.twoPi rationalSine)
      { wetE.dl.memWrite rationalFormat wetE.dl.writeIndex wetE.audio.val with
        readDistance := wetE.osc.sample + wetE.config.baseOffset } := by decide +kernel

theorem witness_DirectCommandsReproduceTheFrame :
    active.eng.fstep = .idle ∧ active.eng.active = true ∧ active.osc.sampleRate ≠ 0 := witness_wholeFrame

theorem witness_ModulationLagsOneTick :
    active.eng.fstep = .idle ∧ active.eng.active = true ∧ active.osc.sampleRate ≠ 0 := witness_wholeFrame

/-- At the smallest capacity the statement admits. -/
theorem witness_ZeroDepthDelaysByOneFrame :
    let s : State := { active with dl.capacity := 2, osc.amplitude := 0 }
    s.eng.fstep = .idle ∧ s.eng.active = true ∧ s.osc.sampleRate ≠ 0 ∧ DelayLineInv rationalFormat s.dl ∧ 2 ≤ s.dl.capacity ∧
    s.config.baseOffset = 1 ∧ s.eng.gain = 1 ∧ s.osc.amplitude = 0 ∧ s.osc.sample = 0 :=
  ⟨by decide +kernel, by decide +kernel, by decide +kernel,
    ⟨by decide +kernel, by decide +kernel, by decide +kernel⟩, by decide +kernel, by decide +kernel,
    by decide +kernel, by decide +kernel, by decide +kernel⟩

/-- At each side of the three points where a `SETP` is seen, and at the end of the frame. -/
theorem witness_ConcurrentSetpIsSeenOrNot :
    (∀ k ∈ [0, 4, 5, 6, 7, 8], k ≤ 8) ∧ active.eng.fstep = .idle ∧ active.eng.active = true ∧
    active.osc.sampleRate ≠ 0 ∧ wetE.eng.fstep = .idle ∧ wetE.eng.active = true ∧
    wetE.osc.sampleRate ≠ rationalFormat.zero ∧
    (30 : ℚ) = DelayLine.readSample rationalFormat
      { wetE.dl.memWrite rationalFormat wetE.dl.writeIndex wetE.audio.val with
        readDistance := rationalFormat.add wetE.osc.sample wetE.config.baseOffset } := by decide +kernel

/-- `D = 1`, base offset 1, capacity 3: the tight sizing of R176, the sample at the depth. -/
theorem witness_SizedFramesReadTrueHistory :
    let s : State := { active with dl.capacity := 3, osc.sample := 1, eng.fstep := .s2 }
    SizedFor rationalFormat s 1 ∧ |s.osc.sample| ≤ 1 ∧ s.eng.fstep = .s2 :=
  ⟨⟨by decide +kernel, by decide +kernel⟩, by decide +kernel, rfl⟩

theorem witness_BlockRunsToCompletion :
    let s : State := { active with audio.pending := blockTxns [1, 0], schedule := List.replicate 16 .audio }
    s.eng.fstep = .idle ∧ s.eng.active = true ∧ s.osc.sampleRate ≠ 0 ∧ s.dl.writeIndex < s.dl.capacity ∧
    s.audio.pending = blockTxns [1, 0] ++ [] ∧
    s.schedule = List.replicate (8 * ([1, 0] : List ℚ).length) Agent.audio ++ [] := by decide +kernel

/-- A state inside a frame, one step of it. -/
theorem witness_StepKeepsTheInvariant :
    Inv rationalFormat { p3Frame4 with schedule := [.audio] } ∧
    ∃ t, stepOn rationalFormat { p3Frame4 with schedule := [.audio] } = .next t :=
  ⟨⟨⟨by decide +kernel, by decide +kernel, by decide +kernel⟩, by decide +kernel, by decide +kernel⟩,
    next_of_isSome (by decide +kernel)⟩

/-- Every register changes under some command. -/
theorem witness_OscRegistersAreWrittenAsR11Says :
    look (fun t => decide (t.osc.sampleRate ≠ 4)) (exec .oscSetsr (withVal 8 State.reset)) = some true ∧
    look (fun t => decide (t.osc.frequency ≠ 1/2)) (exec .oscSetf (withVal 8 State.reset)) = some true ∧
    look (fun t => decide (t.osc.amplitude ≠ 1/2)) (exec .oscSeta (withVal 8 State.reset)) = some true ∧
    look (fun t => decide (t.osc.phase ≠ 0)) (exec .oscTick State.reset) = some true ∧
    look (fun t => decide (t.osc.sample ≠ 0)) (exec .oscTick (oscAt (1/4))) = some true := by decide +kernel

theorem witness_DelayLineIsWrittenAsR13Says :
    look (fun t => decide (t.dl.capacity ≠ 8)) (exec .dlSetsr (withVal 8 stateE)) = some true ∧
    look (fun t => decide (t.dl.writeIndex ≠ 3)) (exec .dlTick stateE) = some true ∧
    look (fun t => decide (t.dl.readDistance ≠ 0)) (exec .dlSetd (withVal 8 stateE)) = some true ∧
    look (fun t => decide (t.dl.buffer ≠ stateE.dl.buffer)) (exec .dlWrite (withVal 8 stateE)) = some true ∧
    Instr.dlRead ≠ .dlWrite ∧ Instr.dlRead ≠ .frame ∧ Instr.dlRead ≠ .dlSetsr ∧ Instr.dlRead ≠ .srate ∧
    look (fun _ => true) (exec .dlRead stateE) = some true := by decide +kernel

theorem witness_EngineRegistersAreWrittenAsR16Says :
    look (fun t => decide (t.eng.gain ≠ 1)) (exec (.setp .gain) State.reset) = some true ∧
    look (fun t => decide (t.eng.rate ≠ 1/2)) (exec (.setp .rate) State.reset) = some true ∧
    look (fun t => decide (t.eng.depth ≠ 1/2)) (exec (.setp .depth) State.reset) = some true ∧
    look (·.eng.active) (exec .act State.reset) = some true ∧
    look (fun t => decide (t.eng.x ≠ 40)) (exec .frame { p3Frame4 with eng.fstep := .s1 }) = some true ∧
    look (fun t => decide (t.eng.wet ≠ 0)) (exec .frame p3Frame4) = some true := by decide +kernel

/-- A delivery on each port, and a command that delivers nothing. -/
theorem witness_PortsAreWrittenAsR63Says :
    look (fun t => t.audio.results.length) (exec .dlRead stateE) = some 1 ∧
    look (fun t => t.control.results.length) (exec (.getp .gain) stateE) = some 1 ∧
    look (fun t => t.audio.results.length + t.control.results.length) (exec .dlTick stateE) = some 0 := by
  decide +kernel

theorem witness_AgentsSeeOnlyTheirOwnRegisters :
    Instr.dlRead.port = .audio ∧ Instr.dlRead ≠ .frame ∧ (Instr.setp .rate).port = .control := by decide

theorem witness_CoherenceIsKept :
    Instr.setp .rate ≠ .oscSetf ∧ Instr.setp .rate ≠ .oscSeta ∧ Coherent State.reset ∧
    ∃ t, execOn rationalFormat (.setp .rate) State.reset = .next t :=
  ⟨by decide, by decide, ⟨by decide +kernel, by decide +kernel⟩, next_of_isSome (by decide +kernel)⟩

theorem witness_SampleRateChangePreservesParameters :
    1 ≤ ⌈(withVal 8 active).audio.val * active.config.maxDelaySeconds⌉ := by decide +kernel

/-- For each clause an instruction it restricts: FRAME at S6, OSC.TICK, SRATE with one cell. -/
theorem witness_ExecAndStepAreTheCaseOfTheirFormat :
    (p3Frame4.eng.active = true ∧ ({ p3Frame4 with eng.fstep := .s6 } : State).osc.sampleRate ≠ 0) ∧
    (oscAt 0).osc.sampleRate ≠ 0 ∧ (withVal (1/10) stateE).eng.active = false ∧
    1 ≤ ⌈(withVal (1/10) stateE).audio.val * stateE.config.maxDelaySeconds⌉ ∧
    ∀ n ∈ [0, 1, 255], Instr.oscTick ≠ .oscSetw (.reserved n) := by
  decide +kernel

end Sys2Proof.Tests
end

section
/-! What every command can answer, said once (R157), and the plain-data machine as the case of its format (O60). -/

namespace Sys2Proof.Machine

variable {N : Type} {F : NumFormat N}

/-! ## Refusals -/

/-- The fault type is empty (R150), so an outcome is a next state or a refusal. -/
theorem next_or_refused (o : ResultOn N) : (∃ t, o = .next t) ∨ ∃ r, o = .refused r := by
  cases o with
  | next t => exact .inl ⟨t, rfl⟩
  | fault r => exact r.casesOn
  | refused r => exact .inr ⟨r, rfl⟩

/-- A sequence is refused in its first part, or in its second from the state the first one reached. -/
theorem andThen_eq_refused {o : ResultOn N} {f : State N → ResultOn N} {r : Refusal} :
    andThen o f = .refused r ↔ o = .refused r ∨ ∃ s, o = .next s ∧ f s = .refused r := by
  cases o with
  | next s => simp
  | fault r => exact r.casesOn
  | refused r => simp

/-- `SRATE` is refused where its reconfiguration is: storing the sample rate never is. -/
theorem srateOn_eq_refused {s : State N} {r : Refusal} :
    srateOn F s = .refused r ↔ reconfigure F s.audio.val s = .refused r := by
  simp [srateOn, andThen_eq_refused, audioOperand]

/-- Where the acceptance of a frame is refused. -/
theorem frameAccept_eq_refused {s : State N} {r : Refusal} :
    frameAccept s = .refused r ↔ r = .frameWhileInactive ∧ s.eng.active = false := by
  rw [frameAccept]
  cases s.eng.active <;> simp [eq_comm]

/-- Of the parts of a frame only the acceptance and S6 can be refused. -/
theorem frameOn_eq_refused {s : State N} {r : Refusal} :
    frameOn F s = .refused r ↔
      (r = .frameWhileInactive ∧ s.eng.fstep = .idle ∧ s.eng.active = false) ∨
      (r = .divideByZero ∧ s.eng.fstep = .s6 ∧ s.osc.sampleRate = F.zero) := by
  rcases frameOn_cases F s with ⟨a, b⟩ | ⟨a, b⟩ | ⟨a, b⟩ | ⟨a, b⟩ | ⟨a, b⟩ | ⟨a, b⟩ | ⟨a, b⟩ | ⟨a, b⟩ <;>
    simp [a, b, frameAccept_eq_refused, andThen_eq_refused, oscAdvance_eq_refused]

/-- The five cases of R157 in which a command is refused, over every format. -/
theorem execOn_eq_refused {i : Instr} {s : State N} {r : Refusal} :
    execOn F i s = .refused r ↔
      (r = .frameWhileInactive ∧ i = .frame ∧ s.eng.fstep = .idle ∧ s.eng.active = false) ∨
      (r = .reconfigureWhileActive ∧ (i = .srate ∨ i = .dlSetsr) ∧ s.eng.active = true) ∨
      (r = .zeroCapacity ∧ (i = .srate ∨ i = .dlSetsr) ∧ s.eng.active = false ∧
        capacityFor F s.config s.audio.val < 1) ∨
      (r = .divideByZero ∧ (i = .oscTick ∨ i = .frame ∧ s.eng.fstep = .s6) ∧ s.osc.sampleRate = F.zero) ∨
      (r = .reservedWaveform ∧ ∃ n, i = .oscSetw (.reserved n)) := by
  cases i with
  | frame => simp [execOn, frameOn_eq_refused]
  | srate => simp [execOn, srateOn_eq_refused, reconfigure_eq_refused]
  | dlSetsr => simp [execOn, dlSetsrOn, audioOperand, reconfigure_eq_refused]
  | oscTick => simp [execOn, oscTickOn, oscAdvance_eq_refused]
  | oscSetw kind =>
    cases kind with
    | sine => simp [execOn, oscSetwOn]
    | reserved code => simpa [execOn, oscSetwOn] using eq_comm
  | act | deact | getp | setp | oscSetsr | oscSetf | oscSeta | oscGet | dlWrite | dlSetd | dlRead | dlTick =>
    simp [execOn, actOn, deactOn, getpOn, setpOn, oscSetsrOn, oscSetfOn, oscSetaOn, oscGetOn, dlWriteOn,
      dlSetdOn, dlReadOn, dlTickOn]

/-- A command outside the five cases of R157 completes, over every format. -/
theorem execOn_completes {i : Instr} {s : State N}
    (accepted : i = .frame → s.eng.fstep = .idle → s.eng.active = true)
    (advance : i = .frame → s.eng.fstep = .s6 → s.osc.sampleRate ≠ F.zero)
    (tick : i = .oscTick → s.osc.sampleRate ≠ F.zero)
    (sized : i = .srate ∨ i = .dlSetsr → s.eng.active = false ∧ 1 ≤ capacityFor F s.config s.audio.val)
    (wave : ∀ n, i ≠ .oscSetw (.reserved n)) : ∃ t, execOn F i s = .next t := by
  refine (next_or_refused _).resolve_right ?_
  rintro ⟨r, refused⟩
  rcases execOn_eq_refused.1 refused with ⟨-, frame, idle, inactive⟩ | ⟨-, reconf, active⟩ |
    ⟨-, reconf, -, small⟩ | ⟨-, osc | ⟨frame, s6⟩, zero⟩ | ⟨-, n, reserved⟩
  · simp [accepted frame idle] at inactive
  · simp [(sized reconf).1] at active
  · exact absurd small (not_lt.2 (sized reconf).2)
  · exact tick osc zero
  · exact advance frame s6 zero
  · exact wave n reserved

/-! ## The machine over a format -/

/-- The plain-data machine is the machine over its format, created with configuration T (log entry 4). -/
theorem core_eq_machineOn : core = machineOn rationalFormat Config.vectors := by
  rw [core, step_eq_stepOn]
  rfl

/-- The host's runs of a machine over a format are those of `runOn`. -/
theorem machineOn_run (F : NumFormat N) (c : Config N) (k : Nat) (s : State N) :
    (machineOn F c).run k s = runOn F k s := by
  induction k generalizing s with
  | zero => rfl
  | succ k ih => cases h : stepOn F s <;> simp [Host.Core.run, runOn, andThen, h, ih]

/-- Settles O60: completion is the case `rationalFormat` of `execOn_completes`; the rest assembles the lemmas that relate
`exec`, `step` and `core` to their format, and the sine's facts in the two exact formats. -/
theorem execAndStepAreTheCaseOfTheirFormat : Obligations.ExecAndStepAreTheCaseOfTheirFormat := by
  refine ⟨fun i s => by rw [exec_eq_execOn], fun s => by rw [step_eq_stepOn], core_eq_machineOn,
    fun _ => machineOn_run, ?_, ⟨rationalSine, rfl, rationalSine_facts⟩, realSine_facts⟩
  intro i s accepted advance tick sized wave
  obtain ⟨t, completes⟩ := execOn_completes (F := rationalFormat) accepted advance tick sized wave
  exact ⟨t, by rw [exec_eq_execOn, completes], completes⟩

end Sys2Proof.Machine
end

section
/-! What every command that completes leaves, said once: one case a command, and one a part of a `FRAME`. The column
"written by" of R11, R13, R16 and R63 is read off it (O53 to O56), and so are the invariants (O25, O51, O58). -/

namespace Sys2Proof.Machine

variable {N : Type} {F : NumFormat N}

/-! ## What a command leaves -/

/-- `Effect F s i t`: the command `i` completes from `s`, and leaves `t`. The eight parts of a `FRAME` are its last eight
cases, in the order of R121. `execOn_eq_next` ties it to the model. -/
inductive Effect (F : NumFormat N) (s : State N) : Instr → State N → Prop
  | act : Effect F s .act { s with eng.active := true }
  | deact : Effect F s .deact { s with eng.active := false }
  | srate (inactive : s.eng.active = false) (sized : 1 ≤ capacityFor F s.config s.audio.val) :
      Effect F s .srate
        { s with dl := s.dl.refill (capacityFor F s.config s.audio.val).toNat, osc.sampleRate := s.audio.val }
  | getp (id : ParamId) : Effect F s (.getp id) (s.deliverControl (readParam F id s))
  | setp (id : ParamId) : Effect F s (.setp id) (writeParam id s.control.val s)
  | oscSetsr : Effect F s .oscSetsr { s with osc.sampleRate := s.audio.val }
  | oscSetf : Effect F s .oscSetf { s with osc.frequency := s.audio.val }
  | oscSeta : Effect F s .oscSeta { s with osc.amplitude := s.audio.val }
  | oscSetw : Effect F s (.oscSetw .sine) { s with osc.waveform := .sine }
  | oscTick (rate : s.osc.sampleRate ≠ F.zero) :
      Effect F s .oscTick { s with osc := (s.osc.resample F).turn F }
  | oscGet : Effect F s .oscGet (s.deliverAudio s.osc.sample)
  | dlSetsr (inactive : s.eng.active = false) (sized : 1 ≤ capacityFor F s.config s.audio.val) :
      Effect F s .dlSetsr { s with dl := s.dl.refill (capacityFor F s.config s.audio.val).toNat }
  | dlWrite : Effect F s .dlWrite { s with dl := s.dl.store F s.audio.val }
  | dlSetd : Effect F s .dlSetd { s with dl.readDistance := s.audio.val }
  | dlRead : Effect F s .dlRead (s.deliverAudio (s.dl.readSample F))
  | dlTick : Effect F s .dlTick { s with dl := s.dl.advance }
  | frameAccept (at_idle : s.eng.fstep = .idle) (active : s.eng.active = true) :
      Effect F s .frame (s.setFStep .s1)
  | frameWrite (at_s1 : s.eng.fstep = .s1) : Effect F s .frame ((frameWrite F s).setFStep .s2)
  | frameDistance (at_s2 : s.eng.fstep = .s2) : Effect F s .frame ((frameDistance F s).setFStep .s3)
  | frameRead (at_s3 : s.eng.fstep = .s3) : Effect F s .frame ((frameRead F s).setFStep .s4)
  | frameMix (at_s4 : s.eng.fstep = .s4) : Effect F s .frame ((frameMix F s).setFStep .s5)
  | frameSample (at_s5 : s.eng.fstep = .s5) : Effect F s .frame ((oscSample F s).setFStep .s6)
  | frameAdvance (at_s6 : s.eng.fstep = .s6) (rate : s.osc.sampleRate ≠ F.zero) :
      Effect F s .frame (({ s with osc := s.osc.turn F } : State N).setFStep .s7)
  | frameTick (at_s7 : s.eng.fstep = .s7) : Effect F s .frame ((frameTick s).setFStep .idle)

theorem effect_of_frameOn {s t : State N} (h : frameOn F s = .next t) : Effect F s .frame t := by
  rcases frameOn_next h with ⟨k, active, rfl⟩ | ⟨k, rfl⟩ | ⟨k, rfl⟩ | ⟨k, rfl⟩ | ⟨k, rfl⟩ | ⟨k, rfl⟩ |
    ⟨k, rate, rfl⟩ | ⟨k, rfl⟩
  · exact .frameAccept k active
  · exact .frameWrite k
  · exact .frameDistance k
  · exact .frameRead k
  · exact .frameMix k
  · exact .frameSample k
  · exact .frameAdvance k rate
  · exact .frameTick k

/-- The meaning of a command goes on exactly to the state of its effect. -/
theorem execOn_eq_next {i : Instr} {s t : State N} : execOn F i s = .next t ↔ Effect F s i t := by
  constructor
  · intro h
    cases i with
    | frame => exact effect_of_frameOn h
    | srate =>
      obtain ⟨u, reconfigured, h⟩ := andThen_eq_next.1 h
      obtain ⟨inactive, sized, rfl⟩ := reconfigure_eq_next.1 reconfigured
      obtain rfl := Host.Outcome.next.inj h
      exact .srate inactive sized
    | dlSetsr =>
      obtain ⟨inactive, sized, rfl⟩ := reconfigure_eq_next.1 h
      exact .dlSetsr inactive sized
    | oscTick =>
      obtain ⟨rate, rfl⟩ := oscAdvance_eq_next.1 h
      exact .oscTick rate
    | oscSetw kind =>
      cases kind with
      | sine => obtain rfl := Host.Outcome.next.inj h; exact .oscSetw
      | reserved code => cases h
    | act | deact | getp | setp | oscSetsr | oscSetf | oscSeta | oscGet | dlWrite | dlSetd | dlRead | dlTick =>
      obtain rfl := Host.Outcome.next.inj h
      constructor
  · intro effect
    cases effect with
    | srate inactive sized => exact andThen_eq_next.2 ⟨_, reconfigure_eq_next.2 ⟨inactive, sized, rfl⟩, rfl⟩
    | dlSetsr inactive sized => exact reconfigure_eq_next.2 ⟨inactive, sized, rfl⟩
    | oscTick rate => exact oscTickOn_eq rate
    | frameAccept k active => simp [execOn, frameOn, k, frameAccept_eq_next, active]
    | frameAdvance k rate =>
      simp only [execOn, frameOn, k]
      exact andThen_eq_next.2 ⟨_, oscAdvance_eq_next.2 ⟨rate, rfl⟩, rfl⟩
    | frameWrite k | frameDistance k | frameRead k | frameMix k | frameSample k | frameTick k =>
      simp only [execOn, frameOn, k]
    | _ => rfl

/-! ## Which command writes what (R11, R13, R16, R63) -/

section Fields
variable (F) (s : State N)
@[simp] theorem frameWrite_rate : (frameWrite F s).eng.rate = s.eng.rate := rfl
@[simp] theorem frameWrite_depth : (frameWrite F s).eng.depth = s.eng.depth := rfl
@[simp] theorem frameWrite_wet : (frameWrite F s).eng.wet = s.eng.wet := rfl
@[simp] theorem frameWrite_schedule : (frameWrite F s).schedule = s.schedule := rfl
@[simp] theorem frameDistance_schedule : (frameDistance F s).schedule = s.schedule := rfl
@[simp] theorem frameDistance_memRead (a : Int) : (frameDistance F s).dl.memRead F a = s.dl.memRead F a := rfl
@[simp] theorem frameRead_rate : (frameRead F s).eng.rate = s.eng.rate := rfl
@[simp] theorem frameRead_depth : (frameRead F s).eng.depth = s.eng.depth := rfl
@[simp] theorem frameRead_schedule : (frameRead F s).schedule = s.schedule := rfl
@[simp] theorem frameMix_schedule : (frameMix F s).schedule = s.schedule := rfl
@[simp] theorem frameTick_schedule : (frameTick s).schedule = s.schedule := rfl
end Fields

@[simp] theorem memRead_setDistance (d : DelayLine N) (v : N) (a : Int) :
    ({ d with readDistance := v } : DelayLine N).memRead F a = d.memRead F a := rfl

/-- A waveform is `SINE`: the closed set of R4 has no other member. -/
theorem waveform_eq_sine : ∀ w : Waveform, w = .sine
  | .sine => rfl

/-- Settles O53: a command that is not named keeps the register; of a `FRAME`, S5 and S6 alone touch the oscillator. -/
theorem oscRegistersAreWrittenAsR11Says : Obligations.OscRegistersAreWrittenAsR11Says := by
  intro N F i s t h
  cases execOn_eq_next.1 h with
  | setp id => cases id <;> simp [writeParam, waveform_eq_sine]
  | frameSample k | frameAdvance k _ => simp [k, waveform_eq_sine]
  | _ => simp [waveform_eq_sine]

/-- Settles O54: a command that is not named keeps the register; of a `FRAME`, S1, S2 and S7 alone touch the DelayLine. -/
theorem delayLineIsWrittenAsR13Says : Obligations.DelayLineIsWrittenAsR13Says := by
  intro N F i s t h
  cases execOn_eq_next.1 h with
  | frameWrite k | frameDistance k | frameTick k => simp [k]
  | _ => simp

/-- Settles O55: a command that is not named keeps the register, and each part of a `FRAME` ends at the successor of the
value it began at. -/
theorem engineRegistersAreWrittenAsR16Says : Obligations.EngineRegistersAreWrittenAsR16Says := by
  intro N F i s t h
  cases execOn_eq_next.1 h with
  | setp id => cases id <;> simp [writeParam]
  | frameAccept k _ | frameWrite k | frameDistance k | frameRead k | frameMix k | frameSample k
  | frameAdvance k _ | frameTick k => simp [k, FStep.succ]
  | _ => simp

/-- Settles O56: `OSC.GET`, `DL.READ`, S4 and `GETP` append one result to one port, and every other case keeps both. -/
theorem portsAreWrittenAsR63Says : Obligations.PortsAreWrittenAsR63Says := by
  intro N F i s t h
  cases execOn_eq_next.1 h with
  | frameAccept k _ | frameWrite k | frameDistance k | frameRead k | frameMix k | frameSample k
  | frameAdvance k _ | frameTick k => simp [k]
  | _ => simp

/-- Settles O58: of the commands that write one of the four registers (R11, R16), only `SETP rate` and `SETP depth` are
left, and they write a parameter and its forwarded register alike. -/
theorem coherenceIsKept : Obligations.CoherenceIsKept := by
  intro N F i s t notSetf notSeta ⟨rate, depth⟩ h
  cases execOn_eq_next.1 h with
  | setp id => cases id <;> simp [Coherent, writeParam, rate, depth]
  | oscSetf => exact absurd rfl notSetf
  | oscSeta => exact absurd rfl notSeta
  | _ => exact ⟨rate, depth⟩

/-- Settles O59: `DEACT` leaves the engine inactive, so that `SRATE` goes on; each register is read off the effects of
the three commands. -/
theorem sampleRateChangePreservesParameters : Obligations.SampleRateChangePreservesParameters := by
  intro N F s sized
  refine ⟨_, andThen_eq_next.2 ⟨_, execOn_eq_next.2 .deact, andThen_eq_next.2
    ⟨_, execOn_eq_next.2 (.srate rfl sized), execOn_eq_next.2 .act⟩⟩, ?_⟩
  simp

/-! ## What a step runs -/

/-- A step that answers a state has moved the schedule alone, or run one command from a state with the same registers:
an AUDIO command other than `FRAME` only between frames (R48). -/
theorem stepOn_next {s t : State N} (h : stepOn F s = .next t) :
    (∃ rest, t = { s with schedule := rest }) ∨
    ∃ i u, execOn F i u = .next t ∧ u.osc = s.osc ∧ u.dl = s.dl ∧ u.eng = s.eng ∧
      (i.port = .audio → i ≠ .frame → s.eng.fstep = .idle) := by
  rcases stepOn_cases F s with ⟨-, -, step⟩ | ⟨-, -, step⟩ | ⟨rest, -, -, step⟩ | ⟨a, rest, -, -, -, step⟩ |
    ⟨a, x, more, rest, due, step⟩ <;> rw [step] at h
  · exact .inl ⟨s.schedule, (Host.Outcome.next.inj h).symm⟩
  · exact .inr ⟨.frame, s, h, rfl, rfl, rfl, fun _ other => absurd rfl other⟩
  · exact .inr ⟨.frame, _, h, rfl, rfl, rfl, fun _ other => absurd rfl other⟩
  · exact .inl ⟨rest, (Host.Outcome.next.inj h).symm⟩
  · obtain ⟨i, -, port, h⟩ := issue_eq_next.1 h
    exact .inr ⟨i, _, h, by simp [taken], by simp [taken], by simp [taken], fun audio _ => due.idle (port ▸ audio)⟩

/-! ## The invariant -/

/-- The invariant speaks of the DelayLine and the engine alone. -/
theorem Inv.congr {s t : State N} (inv : Inv F s) (dl : t.dl = s.dl) (fstep : t.eng.fstep = s.eng.fstep)
    (active : t.eng.active = s.eng.active) (x : t.eng.x = s.eng.x) : Inv F t where
  dl := dl ▸ inv.dl
  frame_active := by rw [fstep, active]; exact inv.frame_active
  input_written := by rw [fstep, dl, x]; exact inv.input_written

/-- Between frames the invariant is that of the DelayLine. -/
theorem inv_of_idle {s : State N} (idle : s.eng.fstep = .idle) (dl : DelayLineInv F s.dl) : Inv F s where
  dl := dl
  frame_active := fun busy => absurd idle busy
  input_written := fun after => by simp [idle, FStep.afterWrite] at after

/-- Every command that completes leaves the DelayLine in order. -/
theorem Effect.delayLineInv {i : Instr} {s t : State N} (effect : Effect F s i t) (order : DelayLineInv F s.dl) :
    DelayLineInv F t.dl := by
  cases effect with
  | srate _ sized | dlSetsr _ sized => exact refill_inv _ (by omega)
  | dlWrite | frameWrite => exact store_inv order _
  | dlSetd | frameDistance => exact setDistance_inv order _
  | dlTick | frameTick => exact advance_inv order
  | setp id => rwa [writeParam_dl]
  | _ => exact order

/-- Inside a frame, from S2 to S6, a part that keeps the flag, the latched input and the cell at the write head keeps
the invariant. -/
theorem Inv.inside_frame {s t : State N} (inv : Inv F s) (after : s.eng.fstep.afterWrite = true)
    (order : DelayLineInv F t.dl) (active : t.eng.active = s.eng.active) (x : t.eng.x = s.eng.x)
    (cell : t.dl.memRead F t.dl.writeIndex = s.dl.memRead F s.dl.writeIndex) : Inv F t where
  dl := order
  frame_active := fun _ => active ▸ inv.frame_active fun idle => by simp [idle, FStep.afterWrite] at after
  input_written := fun _ => by rw [cell, x, inv.input_written after]

/-- Every part of a frame keeps the invariant: S1 brings the input to the write head, where it stays until S7. -/
theorem frame_keeps_inv {s t : State N} (inv : Inv F s) (effect : Effect F s .frame t) : Inv F t := by
  have order := effect.delayLineInv inv.dl
  cases effect with
  | frameAccept _ active => exact ⟨order, fun _ => active, by simp [FStep.afterWrite]⟩
  | frameWrite k =>
    exact ⟨order, fun _ => inv.frame_active (by simp [k]), fun _ => by simp [memRead_store inv.dl.memory_wf]⟩
  | frameDistance k | frameRead k | frameMix k | frameSample k | frameAdvance k _ =>
    exact inv.inside_frame (by rw [k]; rfl) order rfl rfl rfl
  | frameTick => exact inv_of_idle rfl order

/-- A command keeps the invariant where a step can run it: `FRAME` and the CONTROL commands in every state, every other
AUDIO command between frames. -/
theorem execOn_keeps_inv {i : Instr} {s t : State N} (inv : Inv F s)
    (between : i.port = .audio → i ≠ .frame → s.eng.fstep = .idle) (h : execOn F i s = .next t) : Inv F t := by
  have effect := execOn_eq_next.1 h
  by_cases frame : i = .frame
  · subst frame; exact frame_keeps_inv inv effect
  cases port : i.port with
  | audio =>
    obtain ⟨-, -, -, -, fstep, -, -⟩ := engineRegistersAreWrittenAsR16Says N F i s t h
    rw [if_neg frame, between port frame] at fstep
    exact inv_of_idle fstep (effect.delayLineInv inv.dl)
  | control =>
    cases effect with
    | getp id => exact inv.congr rfl rfl rfl rfl
    | setp id => exact inv.congr (by simp) (by simp) (by simp) (by simp)
    | _ => cases port

/-- Settles O51: a step moves the schedule or runs a command where it keeps the invariant. -/
theorem stepKeepsTheInvariant : Obligations.StepKeepsTheInvariant := by
  intro N F s t inv h
  rcases stepOn_next h with ⟨rest, rfl⟩ | ⟨i, u, run, -, dl, eng, between⟩
  · exact inv.congr rfl rfl rfl rfl
  · have invU : Inv F u := inv.congr dl (by rw [eng]) (by rw [eng]) (by rw [eng])
    exact execOn_keeps_inv invU (by rwa [eng]) run

/-! ## The phase -/

section Exact
variable {K : Type} [Field K] [LinearOrder K] [IsStrictOrderedRing K] [FloorRing K] {twoPi : K} {sin : K → K}

theorem exact_phaseInTurn {s : State K} :
    PhaseInTurn (exactFormat twoPi sin) s ↔ 0 ≤ s.osc.phase ∧ s.osc.phase ≤ twoPi := by
  simp [PhaseInTurn]

theorem exact_frequencyInRange {s : State K} :
    FrequencyInRange (exactFormat twoPi sin) s ↔ 0 ≤ s.osc.frequency ∧ s.osc.frequency < s.osc.sampleRate := by
  simp [FrequencyInRange]

/-- A frequency in `[0, sampleRate)` turns the phase on by less than one turn. -/
theorem phaseIncrement_mem {frequency sampleRate : K} (pos : 0 < twoPi) (f0 : 0 ≤ frequency)
    (f1 : frequency < sampleRate) :
    0 ≤ phaseIncrement (exactFormat twoPi sin) frequency sampleRate ∧
      phaseIncrement (exactFormat twoPi sin) frequency sampleRate ≤ twoPi := by
  have rate : 0 < sampleRate := f0.trans_lt f1
  refine ⟨div_nonneg (mul_nonneg pos.le f0) rate.le, (div_le_iff₀ rate).2 ?_⟩
  exact mul_le_mul_of_nonneg_left f1.le pos.le

/-- With the host's duty of R175, part T2 leaves the phase in `[0, TWO_PI]`. -/
theorem turn_phase_mem {s : State K} (pos : 0 < twoPi) (phase : PhaseInTurn (exactFormat twoPi sin) s)
    (duty : FrequencyInRange (exactFormat twoPi sin) s) :
    0 ≤ (s.osc.turn (exactFormat twoPi sin)).phase ∧ (s.osc.turn (exactFormat twoPi sin)).phase ≤ twoPi := by
  obtain ⟨p0, p1⟩ := exact_phaseInTurn.1 phase
  obtain ⟨f0, f1⟩ := exact_frequencyInRange.1 duty
  obtain ⟨d0, d1⟩ := phaseIncrement_mem (sin := sin) pos f0 f1
  exact wrapOnce_mem (add_nonneg p0 d0) ((add_le_add p1 d1).trans (two_mul twoPi).ge)

end Exact

/-- A command leaves the phase, or advances it as part T2 does. -/
theorem Effect.phase {i : Instr} {s t : State N} (effect : Effect F s i t) :
    t.osc.phase = s.osc.phase ∨ t.osc.phase = (s.osc.turn F).phase := by
  cases effect with
  | oscTick | frameAdvance => exact .inr rfl
  | setp id => exact .inl (writeParam_phase ..)
  | _ => exact .inl rfl

/-- Settles O25: a step leaves the phase or runs part T2; the duty's sample rate is above `0`, so that `OSC.TICK` and S6
complete. -/
theorem tickKeepsThePhaseInTurn : Obligations.TickKeepsThePhaseInTurn := by
  intro N _ _ _ _ twoPi sin s pos phase duty
  have turned := turn_phase_mem pos phase duty
  obtain ⟨f0, f1⟩ := exact_frequencyInRange.1 duty
  have rate : s.osc.sampleRate ≠ 0 := (f0.trans_lt f1).ne'
  refine ⟨fun t h => ?_, ⟨_, execOn_eq_next.2 (.oscTick rate), exact_phaseInTurn.2 turned⟩,
    fun k => ⟨_, execOn_eq_next.2 (.frameAdvance k rate), exact_phaseInTurn.2 turned⟩⟩
  rcases stepOn_next h with ⟨rest, rfl⟩ | ⟨i, u, run, osc, -⟩
  · exact phase
  · rw [exact_phaseInTurn]
    rcases (execOn_eq_next.1 run).phase with kept | advanced
    · rw [kept, osc]; exact exact_phaseInTurn.1 phase
    · rw [advanced, osc]; exact turned

/-! ## Reset -/

/-- Settles O10: the creation is refused exactly for a capacity below 1, and otherwise answers the reset state, whose
registers are the table's. -/
theorem resetLeavesTheTableOfR22 : Obligations.ResetLeavesTheTableOfR22 := by
  intro N F c
  refine ⟨fun small => if_pos small, fun sized => ⟨State.resetWith F c, if_neg (not_lt.2 sized), ?_⟩⟩
  have capacity : ((State.resetWith F c).dl.capacity : Int) = capacityFor F c c.sr0 :=
    Int.toNat_of_nonneg (zero_le_one.trans sized)
  exact ⟨rfl, rfl, rfl, rfl, rfl, rfl, capacity, fun _ => rfl, rfl, rfl, rfl, rfl, rfl, rfl, rfl, rfl⟩

/-- Reset with a buffer meets the invariant: the sequencer is idle and the DelayLine freshly filled. -/
theorem resetWith_inv {c : Config N} (sized : 1 ≤ capacityFor F c c.sr0) : Inv F (State.resetWith F c) :=
  inv_of_idle rfl (refill_inv (State.resetWith F c).dl (by omega : 0 < (capacityFor F c c.sr0).toNat))

/-- Configuration T is one of R4: a rate of 4 and a buffer of 8 cells. -/
theorem vectors_valid : ConfigValid rationalFormat Config.vectors := by
  refine ⟨(exact_gt_iff _ _).2 ?_, Int.one_le_ceil_iff.2 ?_⟩
  · change (0 : ℚ) < 4; norm_num
  · change (0 : ℚ) < 4 * 2; norm_num

/-- Settles O11: the invariant rests on the capacity, coherence on the equal reset values of the two registers, the phase
range on the reset phase `0`; the machine's own reset is that of configuration T. -/
theorem resetMeetsTheInvariant : Obligations.ResetMeetsTheInvariant := by
  refine ⟨fun N F c ⟨_, sized⟩ => ⟨resetWith_inv sized, rfl, rfl⟩, ?_, Config.vectors, vectors_valid, rfl⟩
  intro N _ _ _ _ twoPi sin c pos
  exact exact_phaseInTurn.2 ⟨le_rfl, pos.le⟩

end Sys2Proof.Machine
end

section
/-! Commands in a row and from a port: sequences of executions and of steps, reads and writes that repeat (O19, O38), and
the command a step takes from a port (O5). -/

namespace Sys2Proof.Machine

variable {N : Type} {F : NumFormat N}

/-! ## Sequences of commands and of steps -/

theorem andThen_assoc (o : ResultOn N) (f g : State N → ResultOn N) :
    andThen (andThen o f) g = andThen o fun s => andThen (f s) g := by
  cases o <;> rfl

/-- The first of several executions, by its effect. -/
theorem execTimes_succ {n : Nat} {i : Instr} {s t : State N} (effect : Effect F s i t) :
    execTimes F (n + 1) i s = execTimes F n i t := by
  rw [execTimes, execOn_eq_next.2 effect, andThen_next]

theorem execTimes_succ_eq_next {n : Nat} {i : Instr} {s t : State N} :
    execTimes F (n + 1) i s = .next t ↔ ∃ u, Effect F s i u ∧ execTimes F n i u = .next t := by
  simp only [execTimes, andThen_eq_next, execOn_eq_next]

theorem execTimes_add (m n : Nat) (i : Instr) (s : State N) :
    execTimes F (m + n) i s = andThen (execTimes F m i s) (execTimes F n i) := by
  induction m generalizing s with
  | zero => rw [Nat.zero_add]; rfl
  | succ m ih => rw [Nat.succ_add, execTimes, execTimes, andThen_assoc]; exact congrArg _ (funext ih)

theorem runOn_add (m n : Nat) (s : State N) : runOn F (m + n) s = andThen (runOn F m s) (runOn F n) := by
  induction m generalizing s with
  | zero => rw [Nat.zero_add]; rfl
  | succ m ih => rw [Nat.succ_add, runOn, runOn, andThen_assoc]; exact congrArg _ (funext ih)

/-! ## Reads and writes repeat (R44, R50) -/

theorem deliverAudio_twice (s : State N) (q r : N) :
    (s.deliverAudio q).deliverAudio r = { s with audio.results := s.audio.results ++ [q, r] } := by
  simp [State.deliverAudio, Port.deliver]

theorem deliverControl_twice (s : State N) (q r : N) :
    (s.deliverControl q).deliverControl r = { s with control.results := s.control.results ++ [q, r] } := by
  simp [State.deliverControl, Port.deliver]

/-- A delivered result is no parameter. -/
@[simp] theorem readParam_deliverControl (id : ParamId) (s : State N) (r : N) :
    readParam F id (s.deliverControl r) = readParam F id s := by cases id <;> rfl

/-- The second of two stores of one sample finds the cell as it leaves it. -/
theorem store_store {d : DelayLine N} (order : DelayLineInv F d) (v : N) :
    (d.store F v).store F v = d.store F v := by
  have cells : (d.buffer.write F (d.cell d.writeIndex) v).write F (d.cell d.writeIndex) v =
      d.buffer.write F (d.cell d.writeIndex) v := write_write order.memory_wf _ _
  exact congrArg (fun b => { d with buffer := b }) cells

/-- Settles O38: each read delivers and changes nothing that a second one reads; the second store is `store_store`. -/
theorem readsAndWritesAreIdempotent : Obligations.ReadsAndWritesAreIdempotent := by
  intro N F s order
  refine ⟨⟨s.dl.readSample F, ?_⟩, ⟨s.osc.sample, ?_⟩, fun id => ⟨readParam F id s, ?_⟩, ?_⟩
  · rw [execTimes_succ .dlRead, execTimes_succ .dlRead, deliverAudio_dl, deliverAudio_twice]; rfl
  · rw [execTimes_succ .oscGet, execTimes_succ .oscGet, deliverAudio_osc, deliverAudio_twice]; rfl
  · rw [execTimes_succ (.getp id), execTimes_succ (.getp id), readParam_deliverControl, deliverControl_twice]; rfl
  · rw [execTimes_succ .dlWrite, execTimes_succ .dlWrite, store_store order, execOn_eq_next.2 .dlWrite]; rfl

/-- Of the known ids the one just written reads back what was written (R50 d). -/
theorem readParam_writeParam {id : ParamId} (known : id = .gain ∨ id = .rate ∨ id = .depth) (v : N) (s : State N) :
    readParam F id (writeParam id v s) = v := by
  rcases known with rfl | rfl | rfl <;> rfl

/-- Settles O19: `GETP` reads the register `SETP` wrote. -/
theorem getpReadsBackSetp : Obligations.GetpReadsBackSetp := by
  intro N F s id known
  refine ⟨_, andThen_eq_next.2 ⟨_, execOn_eq_next.2 (.setp id), execOn_eq_next.2 (.getp id)⟩, ?_⟩
  simp [readParam_writeParam known]

/-! ## A command taken from its port (R48, R60) -/

theorem issue_of_decode {ex : Instr → State N → ResultOn N} {a : Agent} {w : Word} {i : Instr} (s : State N)
    (decoded : decode w = .ok i) (port : i.port = a) : issue ex a w s = ex i s := by
  simp [issue, decoded, port]

section Taken
variable (s : State N) (a : Agent) (x : Txn N) (more : List (Txn N)) (rest : List Agent)
@[simp] theorem taken_config : (taken s a x more rest).config = s.config := setPort_config ..
@[simp] theorem taken_osc : (taken s a x more rest).osc = s.osc := setPort_osc ..
@[simp] theorem taken_dl : (taken s a x more rest).dl = s.dl := setPort_dl ..
@[simp] theorem taken_eng : (taken s a x more rest).eng = s.eng := setPort_eng ..
@[simp] theorem taken_schedule : (taken s a x more rest).schedule = rest := setPort_schedule ..
@[simp] theorem taken_port : (taken s a x more rest).port a = (s.port a).take x more := by cases a <;> rfl

theorem taken_setFStep_schedule (k : FStep) (later : List Agent) :
    { (taken s a x more rest).setFStep k with schedule := later } = (taken s a x more later).setFStep k := by
  cases a <;> rfl

theorem taken_port_other {a b : Agent} (other : b ≠ a) : (taken s a x more rest).port b = s.port b := by
  cases a <;> cases b
  · exact absurd rfl other
  · rfl
  · rfl
  · exact absurd rfl other
end Taken

/-- Settles O5: the step issues the word (`stepOn_due`), which decodes to a command of its port; the rest are the fields
of `taken`. -/
theorem stepRunsTheDecodedCommand : Obligations.StepRunsTheDecodedCommand := by
  intro N F s a x more rest i due decoded port
  refine ⟨?_, taken_port .., fun b other => taken_port_other s x more rest other, taken_schedule ..,
    taken_config .., taken_osc .., taken_dl .., taken_eng ..⟩
  rw [stepOn_due due, issue_of_decode _ decoded port]

end Sys2Proof.Machine
end

section
/-! The run of a frame: the micro-steps that are left run to its end, in AUDIO's turns or without any (O6); the closed
form of a whole frame; and a `BLOCK`, frame after frame (O50). -/

namespace Sys2Proof.Machine

variable {N : Type} {F : NumFormat N}

/-! ## One part of a frame -/

/-- What every part of a frame does to the sequencer, and what none of them touches. -/
theorem Effect.frame_part {s t : State N} (effect : Effect F s .frame t) :
    t.eng.fstep = s.eng.fstep.succ ∧ t.osc.sampleRate = s.osc.sampleRate ∧
      t.audio.pending = s.audio.pending ∧ t.schedule = s.schedule := by
  cases effect with
  | frameAccept k _ | frameWrite k | frameDistance k | frameRead k | frameMix k | frameSample k
  | frameAdvance k _ | frameTick k => simp [k, FStep.succ]

/-- A part of a frame does not look at the schedule. -/
theorem Effect.frame_schedule {s t : State N} (effect : Effect F s .frame t) (l : List Agent) :
    Effect F { s with schedule := l } .frame { t with schedule := l } := by
  cases effect with
  | frameAccept k active => exact .frameAccept k active
  | frameWrite k => exact .frameWrite k
  | frameDistance k => exact .frameDistance k
  | frameRead k => exact .frameRead k
  | frameMix k => exact .frameMix k
  | frameSample k => exact .frameSample k
  | frameAdvance k rate => exact .frameAdvance k rate
  | frameTick k => exact .frameTick k

/-- Inside an accepted frame only a sample rate of `0` could stop a part (R127). -/
theorem frame_part_completes {s : State N} (busy : s.eng.fstep ≠ .idle) (rate : s.osc.sampleRate ≠ F.zero) :
    ∃ t, Effect F s .frame t := by
  have completes : ∃ t, execOn F .frame s = .next t :=
    execOn_completes (fun _ idle => absurd idle busy) (fun _ _ => rate) (by simp) (by simp) (by simp)
  exact completes.imp fun _ => execOn_eq_next.1

theorem left_eq_zero {k : FStep} : k.left = 0 ↔ k = .idle := by cases k <;> simp [FStep.left]

theorem busy_of_left {k : FStep} {n : Nat} (left : k.left = n + 1) : k ≠ .idle := by
  rintro rfl; simp [FStep.left] at left

theorem left_succ {k : FStep} {n : Nat} (h : k.left = n + 1) : k.succ.left = n := by
  cases k <;> simp_all [FStep.left, FStep.succ]

/-! ## The rest of a frame -/

/-- The micro-steps that are left complete and reach the end of the frame. -/
theorem execTimes_left {n : Nat} {s : State N} (left : s.eng.fstep.left = n) (rate : s.osc.sampleRate ≠ F.zero) :
    ∃ t, execTimes F n .frame s = .next t ∧ t.eng.fstep = .idle ∧
      t.audio.pending = s.audio.pending ∧ t.schedule = s.schedule := by
  induction n generalizing s with
  | zero => exact ⟨s, rfl, left_eq_zero.1 left, rfl, rfl⟩
  | succ n ih =>
    obtain ⟨u, effect⟩ := frame_part_completes (busy_of_left left) rate
    obtain ⟨fstep, sampleRate, pending, schedule⟩ := effect.frame_part
    obtain ⟨t, run, idle, pending', schedule'⟩ := ih (s := u) (fstep ▸ left_succ left) (sampleRate ▸ rate)
    exact ⟨t, (execTimes_succ effect).trans run, idle, pending'.trans pending, schedule'.trans schedule⟩

/-- The next `n` steps are AUDIO's or nobody's, with `rest` of the schedule to follow: what a frame in progress needs to
run on (R57). -/
def Undisturbed (s : State N) (n : Nat) (rest : List Agent) : Prop :=
  s.schedule = List.replicate n .audio ++ rest ∨ (s.schedule = [] ∧ rest = [])

theorem stepOn_audio_turn {s : State N} (busy : s.eng.fstep ≠ .idle) {rest : List Agent}
    (turn : s.schedule = .audio :: rest) : stepOn F s = execOn F .frame { s with schedule := rest } := by
  rw [stepOn, stepWith, turn]
  exact if_neg busy

theorem stepOn_no_turn {s : State N} (busy : s.eng.fstep ≠ .idle) (quiet : s.schedule = []) :
    stepOn F s = execOn F .frame s := by
  rw [stepOn, stepWith, quiet]
  exact if_neg busy

/-- Inside a frame an undisturbed step is the frame's next part. -/
theorem stepOn_undisturbed {s : State N} {n : Nat} {rest : List Agent} (busy : s.eng.fstep ≠ .idle)
    (undisturbed : Undisturbed s (n + 1) rest) :
    ∃ l, stepOn F s = execOn F .frame { s with schedule := l } ∧
      ∀ t : State N, Undisturbed { t with schedule := l } n rest := by
  rcases undisturbed with turns | ⟨quiet, done⟩
  · exact ⟨_, stepOn_audio_turn busy turns, fun _ => .inl rfl⟩
  · exact ⟨s.schedule, stepOn_no_turn busy quiet, fun _ => .inr ⟨quiet, done⟩⟩

/-- Undisturbed steps, as many as micro-steps are left, are those micro-steps. -/
theorem runOn_left {n : Nat} {s t : State N} {rest : List Agent} (left : s.eng.fstep.left = n)
    (undisturbed : Undisturbed s n rest) (parts : execTimes F n .frame { s with schedule := rest } = .next t) :
    runOn F n s = .next t := by
  induction n generalizing s with
  | zero =>
    have schedule : s.schedule = rest := undisturbed.elim id fun ⟨quiet, done⟩ => quiet.trans done.symm
    rwa [← schedule] at parts
  | succ n ih =>
    obtain ⟨u, effect, others⟩ := execTimes_succ_eq_next.1 parts
    obtain ⟨l, step, after⟩ := stepOn_undisturbed (F := F) (busy_of_left left) undisturbed
    obtain ⟨fstep, -, -, schedule⟩ := effect.frame_part
    have back : ({ u with schedule := rest } : State N) = u := by rw [← show u.schedule = rest from schedule]
    rw [runOn, step, execOn_eq_next.2 (effect.frame_schedule l), andThen_next]
    exact ih (s := { u with schedule := l }) (fstep ▸ left_succ left) (after u) (back ▸ others)

/-- Settles O6: the first two parts are the step inside a frame; the run is `runOn_left` with the micro-steps of
`execTimes_left`. -/
theorem stepContinuesTheFrame : Obligations.StepContinuesTheFrame := by
  intro N F s busy
  refine ⟨fun rest turn => stepOn_audio_turn busy turn, stepOn_no_turn busy, fun rate rest undisturbed => ?_⟩
  obtain ⟨t, parts, idle, pending, schedule⟩ := execTimes_left (F := F) (s := { s with schedule := rest }) rfl rate
  exact ⟨t, runOn_left rfl undisturbed parts, idle, schedule, pending⟩

/-! ## The whole frame (R121) -/

/-- The sample a frame reads: its input is in the buffer, the distance is the cached sample plus the base offset. -/
def frameWet (F : NumFormat N) (s : State N) : N :=
  DelayLine.readSample F { s.dl.store F s.audio.val with readDistance := F.add s.osc.sample s.config.baseOffset }

/-- What a whole frame leaves of the state it began in. `frame_completes` ties it to the model. -/
def frameEnd (F : NumFormat N) (s : State N) : State N :=
  { s with
    eng.x := s.audio.val, eng.wet := frameWet F s, eng.fstep := .idle
    dl :=
      { s.dl.store F s.audio.val with
        readDistance := F.add s.osc.sample s.config.baseOffset
        writeIndex := (s.dl.writeIndex + 1) % s.dl.capacity }
    osc := (s.osc.resample F).turn F
    audio := s.audio.deliver (mix F s.eng.gain s.audio.val (frameWet F s)) }

section FrameEnd
variable (F) (s : State N)
@[simp] theorem frameEnd_osc : (frameEnd F s).osc = (s.osc.resample F).turn F := rfl
@[simp] theorem frameEnd_audio :
    (frameEnd F s).audio = s.audio.deliver (mix F s.eng.gain s.audio.val (frameWet F s)) := rfl
@[simp] theorem frameEnd_capacity : (frameEnd F s).dl.capacity = s.dl.capacity := rfl
@[simp] theorem frameEnd_writeIndex :
    (frameEnd F s).dl.writeIndex = (s.dl.writeIndex + 1) % s.dl.capacity := rfl
@[simp] theorem frameEnd_gain : (frameEnd F s).eng.gain = s.eng.gain := rfl
@[simp] theorem frameEnd_active : (frameEnd F s).eng.active = s.eng.active := rfl
@[simp] theorem frameEnd_fstep : (frameEnd F s).eng.fstep = .idle := rfl
@[simp] theorem frameEnd_schedule : (frameEnd F s).schedule = s.schedule := rfl
end FrameEnd

@[simp] theorem turn_phase (o : Oscillator N) :
    (o.turn F).phase = wrapOnce F (F.add o.phase (phaseIncrement F o.frequency o.sampleRate)) := rfl

/-- The only waveform is the sine (R4, R80). -/
@[simp] theorem shape_eq_sin (w : Waveform) (p : N) : shape F w p = F.sin p := by cases w; rfl

/-- S1 to S7. -/
theorem frame_after_acceptance {s : State N} (at_s1 : s.eng.fstep = .s1) (rate : s.osc.sampleRate ≠ F.zero) :
    execTimes F 7 .frame s = .next (frameEnd F s) := by
  rw [execTimes_succ (.frameWrite at_s1), execTimes_succ (.frameDistance rfl), execTimes_succ (.frameRead rfl),
    execTimes_succ (.frameMix rfl), execTimes_succ (.frameSample rfl), execTimes_succ (.frameAdvance ?_ ?_),
    execTimes_succ (.frameTick rfl)]
  · simp only [frameWrite, frameDistance, frameRead, frameMix, oscSample, frameTick, State.setFStep,
      State.deliverAudio, audioOperand]
    rfl
  · rfl
  · exact rate

/-- Acceptance and S1 to S7. -/
theorem frame_completes {s : State N} (idle : s.eng.fstep = .idle) (active : s.eng.active = true)
    (rate : s.osc.sampleRate ≠ F.zero) : execTimes F 8 .frame s = .next (frameEnd F s) :=
  (execTimes_succ (.frameAccept idle active)).trans (frame_after_acceptance rfl rate)

/-! ## A `BLOCK` (R57, R133) -/

/-- Eight AUDIO turns take one `FRAME` from the port and run it. -/
theorem runOn_frame {s : State N} {x : N} {more : List (Txn N)} {rest : List Agent} (idle : s.eng.fstep = .idle)
    (active : s.eng.active = true) (rate : s.osc.sampleRate ≠ F.zero)
    (pending : s.audio.pending = txnOf .frame x :: more) (turns : s.schedule = List.replicate 8 .audio ++ rest) :
    runOn F 8 s = .next (frameEnd F (taken s .audio (txnOf .frame x) more rest)) := by
  have due : Due s .audio (txnOf .frame x) more (List.replicate 7 .audio ++ rest) := ⟨turns, pending, fun _ => idle⟩
  have decoded : decode (txnOf .frame x).word = .ok .frame := show decode (encode .frame) = .ok .frame by decide
  have accepted : stepOn F s = .next
      ((taken s .audio (txnOf .frame x) more (List.replicate 7 .audio ++ rest)).setFStep .s1) := by
    rw [stepOn_due due, issue_of_decode _ decoded (by rfl)]
    exact execOn_eq_next.2 (.frameAccept idle active)
  rw [runOn, accepted, andThen_next]
  refine runOn_left rfl (.inl rfl) ?_
  rw [taken_setFStep_schedule]
  exact frame_after_acceptance rfl rate

/-- Settles O50: one frame after the other, each by `runOn_frame`. -/
theorem blockRunsToCompletion : Obligations.BlockRunsToCompletion := by
  intro N F xs
  induction xs with
  | nil =>
    intro s more rest idle active rate index pending turns
    exact ⟨s, [], rfl, rfl, by simp, pending, turns, idle, active, (Nat.mod_eq_of_lt index).symm⟩
  | cons x xs ih =>
    intro s more rest idle active rate index pending turns
    have split : 8 * (x :: xs).length = 8 + 8 * xs.length := by rw [List.length_cons]; omega
    rw [split, List.replicate_add, List.append_assoc] at turns
    let begun := taken s .audio (txnOf .frame x) (blockTxns xs ++ more) (List.replicate (8 * xs.length) .audio ++ rest)
    have first : runOn F 8 s = .next (frameEnd F begun) := runOn_frame idle active rate pending turns
    obtain ⟨t, outs, others, count, results, pending', schedule, idle', active', index'⟩ :=
      ih (frameEnd F begun) more rest rfl active rate (Nat.mod_lt _ (Nat.zero_lt_of_lt index)) rfl rfl
    refine ⟨t, mix F s.eng.gain x (frameWet F begun) :: outs, ?_, congrArg (· + 1) count, ?_, pending', schedule,
      idle', active', ?_⟩
    · rw [split, runOn_add, first, andThen_next, others]
    · rw [results]; exact List.append_assoc ..
    · rw [index', frameEnd_writeIndex, frameEnd_capacity, Nat.mod_add_mod, List.length_cons, Nat.add_assoc,
        Nat.add_comm 1]; rfl

end Sys2Proof.Machine
end

section
/-! One `SETP` of the CONTROL agent inside a frame (R50): it can be exchanged with every part that does not read what it
writes, so that it acts as one before the frame or as one after it (O48). -/

namespace Sys2Proof.Machine

variable {N : Type} {F : NumFormat N}

/-- What `SETP id, v` leaves: the operand on the CONTROL port, the parameter stored and forwarded. -/
def withSetp (id : ParamId) (v : N) (s : State N) : State N := writeParam id v { s with control.val := v }

section WithSetp
variable (id : ParamId) (v : N) (s : State N)
@[simp] theorem withSetp_fstep : (withSetp id v s).eng.fstep = s.eng.fstep := writeParam_fstep ..
@[simp] theorem withSetp_active : (withSetp id v s).eng.active = s.eng.active := writeParam_active ..
@[simp] theorem withSetp_sampleRate : (withSetp id v s).osc.sampleRate = s.osc.sampleRate := writeParam_sampleRate ..
@[simp] theorem withSetp_phase : (withSetp id v s).osc.phase = s.osc.phase := writeParam_phase ..
@[simp] theorem withSetp_sample : (withSetp id v s).osc.sample = s.osc.sample := writeParam_sample ..
@[simp] theorem withSetp_audio : (withSetp id v s).audio = s.audio := writeParam_audio ..
@[simp] theorem withSetp_gain : (withSetp .gain v s).eng.gain = v := rfl
@[simp] theorem withSetp_amplitude : (withSetp .depth v s).osc.amplitude = v := rfl
@[simp] theorem withSetp_frequency : (withSetp .rate v s).osc.frequency = v := rfl
@[simp] theorem frameWet_withSetp : frameWet F (withSetp id v s) = frameWet F s := by cases id <;> rfl
end WithSetp

/-- The part of a frame that reads what `SETP id` writes: S4 the gain, S5 the amplitude, S6 the frequency. -/
def FStep.reads : FStep → ParamId → Bool
  | .s4, .gain => true
  | .s5, .depth => true
  | .s6, .rate => true
  | _, _ => false

/-- How many parts stand before the reading one in a frame; all eight where none reads. -/
def partsBeforeRead : ParamId → Nat
  | .gain => 4
  | .depth => 5
  | .rate => 6
  | .unknown _ => 8

theorem reads_iff (id : ParamId) : ∀ m < 8, (FStep.succ^[m] .idle).reads id = true ↔ m = partsBeforeRead id := by
  cases id with
  | gain | rate | depth => decide
  | unknown n =>
    intro m hm
    have none : ∀ k : FStep, k.reads (.unknown n) = false := fun k => by cases k <;> rfl
    simp [none, partsBeforeRead, hm.ne]

/-- A part of a frame that does not read what `SETP` writes can be exchanged with it. -/
theorem Effect.frame_withSetp {s t : State N} (effect : Effect F s .frame t) {id : ParamId}
    (unread : s.eng.fstep.reads id = false) (v : N) : Effect F (withSetp id v s) .frame (withSetp id v t) := by
  cases effect with
  | frameAccept k active => cases id <;> exact .frameAccept k active
  | frameWrite k => cases id <;> exact .frameWrite k
  | frameDistance k => cases id <;> exact .frameDistance k
  | frameRead k => cases id <;> exact .frameRead k
  | frameTick k => cases id <;> exact .frameTick k
  | frameMix k =>
    cases id with
    | gain => simp [k, FStep.reads] at unread
    | rate | depth | unknown => exact .frameMix k
  | frameSample k =>
    cases id with
    | depth => simp [k, FStep.reads] at unread
    | gain | rate | unknown => exact .frameSample k
  | frameAdvance k rate =>
    cases id with
    | rate => simp [k, FStep.reads] at unread
    | gain | depth | unknown => exact .frameAdvance k rate

/-- So can several in a row, none of which reads it. -/
theorem execTimes_withSetp {n : Nat} {s t : State N} {id : ParamId} (v : N)
    (unread : ∀ m < n, (FStep.succ^[m] s.eng.fstep).reads id = false) (parts : execTimes F n .frame s = .next t) :
    execTimes F n .frame (withSetp id v s) = .next (withSetp id v t) := by
  induction n generalizing s with
  | zero => rw [Host.Outcome.next.inj parts]; rfl
  | succ n ih =>
    obtain ⟨u, effect, others⟩ := execTimes_succ_eq_next.1 parts
    rw [execTimes_succ (effect.frame_withSetp (unread 0 n.succ_pos) v)]
    refine ih (fun m hm => ?_) others
    rw [effect.frame_part.1, ← Function.iterate_succ_apply]
    exact unread (m + 1) (by omega)

/-- Where the sequencer stands after `n` parts. -/
theorem execTimes_fstep {n : Nat} {s t : State N} (parts : execTimes F n .frame s = .next t) :
    t.eng.fstep = FStep.succ^[n] s.eng.fstep := by
  induction n generalizing s with
  | zero => rw [Host.Outcome.next.inj parts]; rfl
  | succ n ih =>
    obtain ⟨u, effect, others⟩ := execTimes_succ_eq_next.1 parts
    rw [ih others, effect.frame_part.1, Function.iterate_succ_apply]

/-- A `SETP` inside a frame acts as one before the frame up to the part that reads it, and as one after the frame from
there on. -/
theorem frameWithSetp_eq {k : Nat} (hk : k ≤ 8) (id : ParamId) (v : N) {s : State N} (idle : s.eng.fstep = .idle)
    (active : s.eng.active = true) (rate : s.osc.sampleRate ≠ F.zero) :
    frameWithSetp F k id v s =
      .next (if k ≤ partsBeforeRead id then frameEnd F (withSetp id v s) else withSetp id v (frameEnd F s)) := by
  have halves (u : State N) :
      execTimes F 8 .frame u = andThen (execTimes F k .frame u) (execTimes F (8 - k) .frame) := by
    rw [← execTimes_add, Nat.add_sub_cancel' hk]
  obtain ⟨u, first, last⟩ := andThen_eq_next.1 ((halves s).symm.trans (frame_completes idle active rate))
  have inside : frameWithSetp F k id v s = execTimes F (8 - k) .frame (withSetp id v u) := by
    rw [frameWithSetp, first, andThen_next, execOn_eq_next.2 (.setp id), andThen_next, withSetp]
  have unread {m : Nat} (hm : m < 8) (other : m ≠ partsBeforeRead id) : (FStep.succ^[m] .idle).reads id = false :=
    Bool.eq_false_iff.2 fun read => other ((reads_iff id m hm).1 read)
  rw [inside]
  split_ifs with before
  · have first' : execTimes F k .frame (withSetp id v s) = .next (withSetp id v u) :=
      execTimes_withSetp v (fun m hm => by rw [idle]; exact unread (by omega) (by omega)) first
    have whole : execTimes F 8 .frame (withSetp id v s) = .next (frameEnd F (withSetp id v s)) :=
      frame_completes (by simp [idle]) (by simp [active]) (by simpa using rate)
    rwa [halves, first', andThen_next] at whole
  · refine execTimes_withSetp v (fun m hm => ?_) last
    rw [execTimes_fstep first, idle, ← Function.iterate_add_apply]
    exact unread (by omega) (by omega)

/-- Settles O48: by `frameWithSetp_eq` the frame is one that began with the new value, or one that ended before it. -/
theorem concurrentSetpIsSeenOrNot : Obligations.ConcurrentSetpIsSeenOrNot := by
  intro N F s k v wet hk idle active rate (read : wet = frameWet F s)
  have inside := fun id => frameWithSetp_eq (F := F) hk id v idle active rate
  refine ⟨⟨_, inside .gain, ?_⟩, ⟨_, inside .depth, ?_⟩, ⟨_, inside .rate, ?_⟩⟩
  · by_cases before : k ≤ 4 <;> simp [partsBeforeRead, before, read]
  · by_cases before : k ≤ 5 <;> simp [partsBeforeRead, before]
  · by_cases before : k ≤ 6 <;> simp [partsBeforeRead, before]

end Sys2Proof.Machine
end

section
/-! The command word: the decoder read row by row of R63, the round trip both ways (O1, O2), the reserved encodings
(O3), the written-out map (O4) and the port check (O7). -/

namespace Sys2Proof

/-! ## The argument (R62) -/

theorem ParamId.toNat_ofArg (arg : BitVec 8) : (ParamId.ofArg arg).toNat = arg.toNat := by
  rw [ParamId.ofArg]
  split <;> simp only [ParamId.toNat, *]

theorem ParamId.wf_ofArg (arg : BitVec 8) : (ParamId.ofArg arg).wf = true := by
  have bound := arg.isLt
  rw [ParamId.ofArg]
  split
  case h_4 no0 no1 no2 =>
    simp only [imp_false] at no0 no1 no2
    simp only [ParamId.wf, Bool.and_eq_true, decide_eq_true_eq]
    omega
  all_goals rfl

theorem ParamId.ofArg_toNat {id : ParamId} (wf : id.wf = true) : ParamId.ofArg (BitVec.ofNat 8 id.toNat) = id := by
  cases id with
  | gain | rate | depth => rfl
  | unknown n =>
    simp only [ParamId.wf, Bool.and_eq_true, decide_eq_true_eq] at wf
    obtain ⟨k, rfl⟩ := Nat.exists_eq_add_of_le' wf.1
    rw [ParamId.toNat, ParamId.ofArg, BitVec.toNat_ofNat, Nat.mod_eq_of_lt (by omega)]
    rfl

theorem WaveKind.toNat_ofArg (arg : BitVec 8) : (WaveKind.ofArg arg).toNat = arg.toNat := by
  rw [WaveKind.ofArg]
  split <;> simp only [WaveKind.toNat, *]

theorem WaveKind.wf_ofArg (arg : BitVec 8) : (WaveKind.ofArg arg).wf = true := by
  have bound := arg.isLt
  rw [WaveKind.ofArg]
  split
  case h_1 => rfl
  case h_2 no0 =>
    simp only [imp_false] at no0
    simp only [WaveKind.wf, Bool.and_eq_true, decide_eq_true_eq]
    omega

theorem WaveKind.ofArg_toNat {kind : WaveKind} (wf : kind.wf = true) :
    WaveKind.ofArg (BitVec.ofNat 8 kind.toNat) = kind := by
  cases kind with
  | sine => rfl
  | reserved n =>
    simp only [WaveKind.wf, Bool.and_eq_true, decide_eq_true_eq] at wf
    obtain ⟨k, rfl⟩ := Nat.exists_eq_add_of_le' wf.1
    rw [WaveKind.toNat, WaveKind.ofArg, BitVec.toNat_ofNat, Nat.mod_eq_of_lt (by omega)]
    rfl

/-! ## The opcode map (R63) -/

/-- The commands of format Z, whose word is fixed. -/
def formatZCommands : List Instr :=
  [.act, .deact, .srate, .frame, .oscSetsr, .oscSetf, .oscSeta, .oscTick, .oscGet, .dlSetsr, .dlWrite, .dlSetd,
    .dlRead, .dlTick]

/-- The opcodes of format A: `GETP`, `SETP`, `OSC.SETW`. -/
def formatAOpcodes : List (BitVec 8) := [0x03#8, 0x04#8, 0x43#8]

/-- The opcodes of format Z. -/
def formatZOpcodes : List (BitVec 8) := formatZCommands.map fun i => opcodeField (encode i)

theorem decode_getp {w : Word} (opcode : opcodeField w = 0x03#8) :
    decode w = .ok (.getp (ParamId.ofArg (argField w))) := by
  simp only [decode, opcode]

theorem decode_setp {w : Word} (opcode : opcodeField w = 0x04#8) :
    decode w = .ok (.setp (ParamId.ofArg (argField w))) := by
  simp only [decode, opcode]

theorem decode_oscSetw {w : Word} (opcode : opcodeField w = 0x43#8) :
    decode w = .ok (.oscSetw (WaveKind.ofArg (argField w))) := by
  simp only [decode, opcode]

theorem decode_formatZ {w : Word} {i : Instr} (row : i ∈ formatZCommands)
    (opcode : opcodeField w = opcodeField (encode i)) : decode w = formatZ (argField w) i := by
  fin_cases row <;> (rw [decode, opcode]; rfl)

theorem decode_unassigned {w : Word} (noA : opcodeField w ∉ formatAOpcodes) (noZ : opcodeField w ∉ formatZOpcodes) :
    decode w = .error (unassigned w) := by
  have opcode : opcodeField w ∉ formatAOpcodes ++ formatZOpcodes := by simp [noA, noZ]
  rw [decode]
  split
  case h_18 => rfl
  all_goals exact absurd (by rw [‹opcodeField w = _›]; decide) opcode

theorem formatZ_wf : ∀ i ∈ formatZCommands, i.wf = true := by decide

theorem formatZ_arg : ∀ i ∈ formatZCommands, argField (encode i) = 0x00#8 := by decide

theorem formatZ_eq_ok_iff {arg : BitVec 8} {i j : Instr} : formatZ arg i = .ok j ↔ arg = 0x00#8 ∧ i = j := by
  rw [formatZ]
  split_ifs with zero <;> simp [zero]

/-! ## The fields make up the word (R61) -/

theorem word_ext {w v : Word} (arg : argField w = argField v) (opcode : opcodeField w = opcodeField v) : w = v := by
  have fields (u : Word) : argField u ++ opcodeField u = u :=
    (BitVec.extractLsb'_append_extractLsb'_eq_extractLsb' (by decide)).trans BitVec.extractLsb'_eq_self
  rw [← fields w, ← fields v, arg, opcode]

theorem wordOf_eq {w : Word} {n : Nat} {u : BitVec 2} {f : BitVec 4} (arg : n = (argField w).toNat)
    (opcode : opcodeField w = BitVec.ofNat 8 (u.toNat * 64 + f.toNat)) : wordOf n u f = w := by
  refine word_ext ?_ ((opcodeField_wordOf ..).trans opcode.symm)
  rw [argField_wordOf, arg, BitVec.ofNat_toNat, BitVec.setWidth_eq]

/-- A word of format A always decodes, to the command that encodes to it. -/
theorem decode_formatA {w : Word} (row : opcodeField w ∈ formatAOpcodes) :
    ∃ i, decode w = .ok i ∧ i.wf = true ∧ encode i = w := by
  simp only [formatAOpcodes, List.mem_cons, List.not_mem_nil, or_false] at row
  rcases row with opcode | opcode | opcode
  · exact ⟨_, decode_getp opcode, ParamId.wf_ofArg _, wordOf_eq (ParamId.toNat_ofArg _) opcode⟩
  · exact ⟨_, decode_setp opcode, ParamId.wf_ofArg _, wordOf_eq (ParamId.toNat_ofArg _) opcode⟩
  · exact ⟨_, decode_oscSetw opcode, WaveKind.wf_ofArg _, wordOf_eq (WaveKind.toNat_ofArg _) opcode⟩

/-- What the decoder does with a word: its row of R63 is one of format A or Z, or there is none. -/
theorem decode_cases (w : Word) :
    (opcodeField w ∈ formatAOpcodes ∧ ∃ i, decode w = .ok i ∧ i.wf = true ∧ encode i = w) ∨
    (opcodeField w ∉ formatAOpcodes ∧ ∃ i ∈ formatZCommands,
      opcodeField w = opcodeField (encode i) ∧ decode w = formatZ (argField w) i) ∨
    (opcodeField w ∉ formatAOpcodes ∧ opcodeField w ∉ formatZOpcodes ∧ decode w = .error (unassigned w)) := by
  by_cases rowA : opcodeField w ∈ formatAOpcodes
  · exact .inl ⟨rowA, decode_formatA rowA⟩
  by_cases rowZ : opcodeField w ∈ formatZOpcodes
  · obtain ⟨i, row, opcode⟩ := List.mem_map.1 rowZ
    exact .inr (.inl ⟨rowA, i, row, opcode.symm, decode_formatZ row opcode.symm⟩)
  · exact .inr (.inr ⟨rowA, rowZ, decode_unassigned rowA rowZ⟩)

/-! ## The round trip -/

/-- Settles O1: a word of format Z is fixed; in format A the decoder reads the operand back from the field `arg`. -/
theorem decodeOfEncodeIsTheCommand : Obligations.DecodeOfEncodeIsTheCommand := by
  intro i wf
  cases i with
  | getp id => rw [decode_getp (opcodeField_wordOf ..), encode, argField_wordOf, ParamId.ofArg_toNat wf]
  | setp id => rw [decode_setp (opcodeField_wordOf ..), encode, argField_wordOf, ParamId.ofArg_toNat wf]
  | oscSetw kind => rw [decode_oscSetw (opcodeField_wordOf ..), encode, argField_wordOf, WaveKind.ofArg_toNat wf]
  | act | deact | srate | frame | oscSetsr | oscSetf | oscSeta | oscTick | oscGet | dlSetsr | dlWrite | dlSetd
  | dlRead | dlTick => rfl

/-- Settles O2: by the rows of `decode_cases`. -/
theorem encodeOfDecodeIsTheWord : Obligations.EncodeOfDecodeIsTheWord := by
  intro w i decoded
  rcases decode_cases w with ⟨-, j, ok, wf, word⟩ | ⟨-, j, row, opcode, ok⟩ | ⟨-, -, error⟩
  · obtain rfl : j = i := Except.ok.inj (ok.symm.trans decoded)
    exact ⟨wf, word⟩
  · obtain ⟨arg, rfl⟩ := formatZ_eq_ok_iff.1 (ok.symm.trans decoded)
    exact ⟨formatZ_wf j row, word_ext ((formatZ_arg j row).trans arg.symm) opcode.symm⟩
  · cases error.symm.trans decoded

/-! ## The reserved encodings (R64) -/

theorem exists_formatZ_eq_error_iff {arg : BitVec 8} {i : Instr} :
    (∃ e, formatZ arg i = .error e) ↔ arg ≠ 0x00#8 := by
  rw [formatZ]
  split_ifs with zero <;> simp [zero]

theorem exists_decode_eq_error_iff (w : Word) :
    (∃ e, decode w = .error e) ↔
      opcodeField w ∉ formatAOpcodes ∧ (opcodeField w ∉ formatZOpcodes ∨ argField w ≠ 0x00#8) := by
  rcases decode_cases w with ⟨rowA, i, ok, -, -⟩ | ⟨rowA, i, row, opcode, ok⟩ | ⟨rowA, rowZ, error⟩
  · simp [ok, rowA]
  · have rowZ : opcodeField w ∈ formatZOpcodes := List.mem_map.2 ⟨i, row, opcode.symm⟩
    rw [ok, exists_formatZ_eq_error_iff]
    simp [rowA, rowZ]
  · simp [error, rowA, rowZ]

/-- The opcodes without a row, by their fields. -/
theorem unassigned_opcode_iff : ∀ opcode : BitVec 8,
    (opcode ∉ formatAOpcodes ∧ opcode ∉ formatZOpcodes) ↔
      opcode.extractLsb' 6 2 = 0b11#2 ∨ opcode.extractLsb' 4 2 ≠ 0b00#2 ∨
      (opcode.extractLsb' 6 2 = 0b00#2 ∧ 0x6 ≤ (opcode.extractLsb' 0 4).toNat) ∨
      (opcode.extractLsb' 6 2 = 0b01#2 ∧ 0x6 ≤ (opcode.extractLsb' 0 4).toNat) ∨
      (opcode.extractLsb' 6 2 = 0b10#2 ∧ 0x5 ≤ (opcode.extractLsb' 0 4).toNat) := by
  decide +kernel

/-- A field of the opcode is one of the word. -/
theorem extractLsb'_opcodeField (w : Word) {start len : Nat} (inside : start + len ≤ 8) :
    (opcodeField w).extractLsb' start len = w.extractLsb' start len := by
  apply BitVec.eq_of_getLsbD_eq
  intro k hk
  have : start + k < 8 := by omega
  simp [opcodeField, this]

end Sys2Proof

namespace Sys2Proof.Machine

theorem issue_of_error {N : Type} {ex : Instr → State N → ResultOn N} {w : Word} {e : DecodeError}
    (a : Agent) (s : State N) (error : decode w = .error e) : issue ex a w s = .refused .reservedEncoding := by
  simp [issue, error]

theorem issue_of_wrong_port {N : Type} {ex : Instr → State N → ResultOn N} {a : Agent} {w : Word} {i : Instr}
    (s : State N) (decoded : decode w = .ok i) (port : i.port ≠ a) : issue ex a w s = .refused .wrongPort := by
  simp [issue, decoded, port]

/-- Settles O3: the words that do not decode by `exists_decode_eq_error_iff`, whose opcodes without a row are those of
`unassigned_opcode_iff`; the step issues the word. -/
theorem reservedEncodingsAreRefused : Obligations.ReservedEncodingsAreRefused := by
  refine ⟨fun w => ?_, fun N F s a x more rest e due error => ?_⟩
  · have formatA : opcodeField w ∉ formatAOpcodes ↔
        opcodeField w ≠ 0x03#8 ∧ opcodeField w ≠ 0x04#8 ∧ opcodeField w ≠ 0x43#8 := by simp [formatAOpcodes]
    rw [exists_decode_eq_error_iff, and_or_left, unassigned_opcode_iff, formatA]
    simp (disch := decide) only [extractLsb'_opcodeField, unitField, rsvField, fnField, or_assoc, and_assoc]
  · rw [stepOn_due due, issue_of_error _ _ error]

/-- Settles O4, by evaluating the decoder. -/
theorem wordsOfTheOpcodeMapDecode : Obligations.WordsOfTheOpcodeMapDecode := by
  unfold Obligations.WordsOfTheOpcodeMapDecode
  decide

/-- Settles O7: the ports are read off R63's table; the step issues the word. -/
theorem wrongPortIsRefused : Obligations.WrongPortIsRefused := by
  refine ⟨fun i => ?_, fun N F s a x more rest i due decoded port => ?_⟩
  · cases i <;> simp [Instr.port]
  · rw [stepOn_due due, issue_of_wrong_port _ decoded port]

end Sys2Proof.Machine
end

section
/-! The oscillator: the commands one by one (O20 to O23), and the run of ticks over an exact format: its closed form (O26),
its period (O27), the bounds on its samples (O24, O28), and silence at amplitude `0` (O29). -/

namespace Sys2Proof.Machine

variable {N : Type} {F : NumFormat N}

/-! ## One command -/

/-- Settles O20: the three effects, whose operand is that of the AUDIO port. -/
theorem oscSettersStoreTheOperand : Obligations.OscSettersStoreTheOperand := by
  rintro N F s v rfl
  exact ⟨execOn_eq_next.2 .oscSetsr, execOn_eq_next.2 .oscSetf, execOn_eq_next.2 .oscSeta⟩

/-- Settles O21: the effect at the sine, and the last of the five refusals at any other kind. -/
theorem oscSetwTakesSineOnly : Obligations.OscSetwTakesSineOnly := by
  intro N F s
  exact ⟨execOn_eq_next.2 .oscSetw, fun n => execOn_eq_refused.2 (.inr (.inr (.inr (.inr ⟨rfl, n, rfl⟩))))⟩

/-- Settles O23: the effect of `OSC.GET` is the delivery of the sample. -/
theorem oscGetDeliversTheSample : Obligations.OscGetDeliversTheSample := by
  intro N F s
  exact execOn_eq_next.2 .oscGet

/-- What `OSC.TICK` does to the oscillator (R85): T1, then T2. `exec_oscTick` ties it to the model. -/
def Oscillator.tick (F : NumFormat N) (o : Oscillator N) : Oscillator N := (o.resample F).turn F

theorem exec_oscTick {s : State N} (rate : s.osc.sampleRate ≠ F.zero) :
    execOn F .oscTick s = .next { s with osc := s.osc.tick F } :=
  execOn_eq_next.2 (.oscTick rate)

/-- The registers after a tick; the only waveform is the sine. -/
theorem tick_eq (F : NumFormat N) (o : Oscillator N) :
    o.tick F =
      { o with
        sample := F.mul o.amplitude (F.sin o.phase)
        phase := wrapOnce F (F.add o.phase (phaseIncrement F o.frequency o.sampleRate)) } := by
  rw [← shape_eq_sin o.waveform]; rfl

/-- Settles O22: the registers after the tick are those of `tick_eq`; the refusal is that of `execOn_eq_refused`. -/
theorem oscTickSamplesThenAdvances : Obligations.OscTickSamplesThenAdvances := by
  rintro N F s q rfl
  refine ⟨fun rate => ?_, fun zero => execOn_eq_refused.2 (.inr (.inr (.inr (.inl ⟨rfl, .inl rfl, zero⟩))))⟩
  rw [exec_oscTick rate, tick_eq]; rfl

/-! ## Ticks in a row -/

theorem execTimes_oscTick (n : Nat) {s : State N} (rate : s.osc.sampleRate ≠ F.zero) :
    execTimes F n .oscTick s = .next { s with osc := (Oscillator.tick F)^[n] s.osc } := by
  induction n generalizing s with
  | zero => rfl
  | succ n ih => rw [execTimes_succ (.oscTick rate)]; exact ih rate

@[simp] theorem tick_sample (o : Oscillator N) : (o.tick F).sample = F.mul o.amplitude (F.sin o.phase) := by
  rw [tick_eq]

section Sine
variable {K : Type} [Field K] [LinearOrder K] {twoPi : K} {sin : K → K}

/-- Whole turns taken off do not change the sine. -/
theorem sine_sub_nat (facts : SineFacts twoPi sin) (a : K) (w : Nat) : sin (a - w * twoPi) = sin a := by
  have := sine_add_int facts a (-w)
  rwa [Int.cast_neg, Int.cast_natCast, neg_mul, ← sub_eq_add_neg] at this

/-- The sine at the phases of R87, in turns: the values of `exactSine`, and the end of the turn. -/
theorem sine_of_turns [IsStrictOrderedRing K] (facts : SineFacts twoPi sin) :
    ∀ p ∈ [((0 : K), (0 : K)), (1/12, 1/2), (1/4, 1), (5/12, 1/2), (1/2, 0), (7/12, -1/2), (3/4, -1),
      (11/12, -1/2), (1, 0)], sin (twoPi * p.1) = p.2 := by
  obtain ⟨-, period, -, -, value⟩ := facts
  have start : sin (twoPi * 0) = 0 := value 0 0 (if_pos (.inl rfl))
  have full : sin (twoPi * 1) = 0 := by
    rw [mul_zero] at start
    rw [mul_one, ← zero_add twoPi, period, start]
  simp only [List.forall_mem_cons, List.not_mem_nil, false_imp_iff, implies_true, and_true]
  refine ⟨start, value _ _ ?_, value _ _ ?_, value _ _ ?_, value _ _ ?_, value _ _ ?_, value _ _ ?_, value _ _ ?_,
    full⟩ <;> norm_num [exactSine]

end Sine

section Exact
variable {K : Type} [Field K] [LinearOrder K] [IsStrictOrderedRing K] [FloorRing K] {twoPi : K} {sin : K → K}

/-- The wrap takes off a natural number of turns: one or none. -/
theorem exists_wrapOnce_eq (p : K) : ∃ w : Nat, wrapOnce (exactFormat twoPi sin) p = p - w * twoPi := by
  rw [exact_wrapOnce]
  split
  · exact ⟨1, by simp⟩
  · exact ⟨0, by simp⟩

/-- A tick over an exact format: one increment on, less a natural number of turns. -/
theorem exact_tick (o : Oscillator K) :
    ∃ w : Nat, o.tick (exactFormat twoPi sin) =
      { o with
        phase := o.phase + twoPi * o.frequency / o.sampleRate - w * twoPi
        sample := o.amplitude * sin o.phase } := by
  obtain ⟨w, wrap⟩ := exists_wrapOnce_eq (twoPi := twoPi) (sin := sin)
    (o.phase + twoPi * o.frequency / o.sampleRate)
  exact ⟨w, by rw [← wrap]; exact tick_eq ..⟩

/-- The registers after `n` ticks: the phase is the accumulated one less a natural number of turns, and only the sample
changes besides. -/
theorem iterate_tick (n : Nat) (o : Oscillator K) :
    ∃ (w : Nat) (x : K), (Oscillator.tick (exactFormat twoPi sin))^[n] o =
      { o with phase := o.phase + n * (twoPi * o.frequency / o.sampleRate) - w * twoPi, sample := x } := by
  induction n with
  | zero => exact ⟨0, o.sample, by simp⟩
  | succ n ih =>
    obtain ⟨w, x, before⟩ := ih
    obtain ⟨v, last⟩ := exact_tick (twoPi := twoPi) (sin := sin) ((Oscillator.tick (exactFormat twoPi sin))^[n] o)
    refine ⟨w + v, o.amplitude * sin (o.phase + n * (twoPi * o.frequency / o.sampleRate) - w * twoPi), ?_⟩
    rw [Function.iterate_succ_apply', last, before]
    congr 1
    push_cast
    ring

/-- The sample of the tick after `n` others: the amplitude times the sine of the accumulated phase. -/
theorem iterate_tick_sample (facts : SineFacts twoPi sin) (n : Nat) (o : Oscillator K) :
    ((Oscillator.tick (exactFormat twoPi sin))^[n + 1] o).sample =
      o.amplitude * sin (o.phase + n * (twoPi * o.frequency / o.sampleRate)) := by
  obtain ⟨w, x, before⟩ := iterate_tick (sin := sin) n o
  rw [Function.iterate_succ_apply', before, tick_sample, exact_mul, exact_sin, sine_sub_nat facts]

/-- With amplitude `0` a sample of `0` stays. -/
theorem iterate_tick_silent (n : Nat) {o : Oscillator K} (amplitude : o.amplitude = 0) (sample : o.sample = 0) :
    ((Oscillator.tick (exactFormat twoPi sin))^[n] o).sample = 0 := by
  cases n with
  | zero => exact sample
  | succ n =>
    obtain ⟨w, x, before⟩ := iterate_tick (sin := sin) n o
    rw [Function.iterate_succ_apply', before, tick_sample, exact_mul, amplitude, zero_mul]

end Exact

/-- Settles O26: the ticks complete by `execTimes_oscTick`, with the registers of `iterate_tick` and the sample of
`iterate_tick_sample`. -/
theorem ticksHaveTheClosedForm : Obligations.TicksHaveTheClosedForm := by
  rintro N _ _ _ _ twoPi sin n s inc facts rate rfl
  obtain ⟨w, x, after⟩ := iterate_tick (twoPi := twoPi) (sin := sin) n s.osc
  refine ⟨_, w, execTimes_oscTick n rate, by rw [after], fun pos => ?_, by rw [after]⟩
  obtain ⟨m, rfl⟩ := Nat.exists_eq_succ_of_ne_zero pos.ne'
  rw [iterate_tick_sample facts, Nat.cast_succ, add_sub_cancel_right]

/-- Settles O27: `P` increments are one turn, which the sine does not see. -/
theorem samplesArePeriodic : Obligations.SamplesArePeriodic := by
  intro N _ _ _ _ twoPi sin P k s facts pos rate period
  refine ⟨_, _, execTimes_oscTick k rate, execTimes_oscTick (k + P) rate, ?_⟩
  have ⟨_, turnKept, _⟩ := facts
  have turn : P * (twoPi * s.osc.frequency / s.osc.sampleRate) = twoPi := by
    rw [mul_div_assoc', mul_left_comm, ← period, mul_div_cancel_right₀ _ rate]
  obtain ⟨m, rfl⟩ := Nat.exists_eq_succ_of_ne_zero pos.ne'
  rw [Nat.succ_add, iterate_tick_sample facts, iterate_tick_sample facts, Nat.cast_add, add_mul, turn, ← add_assoc,
    turnKept]

/-- Settles O28: the samples are the amplitude times the sine at two phases one increment apart, and the sine has slope at
most 1. -/
theorem consecutiveSamplesAreClose : Obligations.ConsecutiveSamplesAreClose := by
  intro N _ _ _ _ twoPi sin s facts rate
  refine ⟨_, _, exec_oscTick rate, exec_oscTick rate, ?_⟩
  have first := iterate_tick_sample facts 0 s.osc
  have second := iterate_tick_sample facts 1 s.osc
  obtain ⟨-, -, -, slope, -⟩ := facts
  simp only [Function.iterate_succ_apply, Function.iterate_zero_apply] at first second
  rw [first, second, ← mul_sub, abs_mul]
  refine mul_le_mul_of_nonneg_left ((slope _ _).trans_eq ?_) (abs_nonneg _)
  simp

/-- Settles O29: the sample stays `0`, and `OSC.GET` delivers it. -/
theorem zeroAmplitudeReadsZero : Obligations.ZeroAmplitudeReadsZero := by
  intro N _ _ _ _ twoPi sin n s rate amplitude sample
  refine ⟨_, _, execTimes_oscTick n rate, execOn_eq_next.2 .oscGet, ?_⟩
  rw [iterate_tick_silent n amplitude sample]; rfl

/-- Settles O24: the sample is that of `tick_sample`; the range and the nine values are the sine's. -/
theorem tickSampleWithinAmplitude : Obligations.TickSampleWithinAmplitude := by
  refine ⟨fun N _ _ _ _ twoPi sin s facts rate => ⟨_, exec_oscTick rate, ?_, fun p hp phase => ?_⟩,
    fun s rate => ⟨_, exec_oscTick rate, tick_sample s.osc⟩⟩
  · obtain ⟨-, -, range, -⟩ := facts
    rw [tick_sample, exact_mul, exact_sin, abs_mul]
    exact mul_le_of_le_one_right (abs_nonneg _) (range _)
  · rw [tick_sample, exact_mul, exact_sin, phase, sine_of_turns facts p hp]

end Sys2Proof.Machine
end

section
/-! The DelayLine: its commands one by one (O14, O15, O30 to O33), the capacity law (O40), the read position and what a
read delivers over an exact format (O34 to O37), and a written run read back (O39). -/

namespace Sys2Proof.Machine

variable {N : Type} {F : NumFormat N}

/-! ## One command -/

/-- Settles O31: the effect of `DL.SETD`. -/
theorem dlSetdStoresTheDistance : Obligations.DlSetdStoresTheDistance := by
  intro N F s
  exact execOn_eq_next.2 .dlSetd

/-- Settles O33: the effect of `DL.TICK`. -/
theorem dlTickAdvancesTheWriteHead : Obligations.DlTickAdvancesTheWriteHead := by
  intro N F s
  exact execOn_eq_next.2 .dlTick

/-- Settles O32: the effect of `DL.READ` delivers the read sample, whose position, taps and weight are those named. -/
theorem dlReadInterpolates : Obligations.DlReadInterpolates := by
  rintro N F s p f i rfl rfl rfl
  exact execOn_eq_next.2 .dlRead

/-- Settles O30: the write head's store is read back in its own cell alone, since the cells below the capacity are
distinct. -/
theorem dlWriteStoresAtTheWriteHead : Obligations.DlWriteStoresAtTheWriteHead := by
  rintro N F s v order rfl
  refine ⟨_, execOn_eq_next.2 .dlWrite, rfl, ?_, fun i below other => ?_⟩
  · rw [memRead_store order.memory_wf, if_pos rfl]
  · rw [memRead_store order.memory_wf, cell_of_lt below, cell_of_lt order.index_lt, if_neg other]

/-! ## Reconfiguration -/

/-- Settles O14: the effect of `DL.SETSR` is the refill, after which every cell reads as `0`. -/
theorem dlSetsrReconfiguresTheDelayLine : Obligations.DlSetsrReconfiguresTheDelayLine := by
  rintro N F s v n rfl inactive size sized
  have capacity : capacityFor F s.config s.audio.val = n := size.symm
  have refilled := execOn_eq_next.2 (Effect.dlSetsr (F := F) inactive (by omega))
  rw [capacity, Int.toNat_natCast] at refilled
  exact ⟨refilled, memRead_refill s.dl n⟩

/-- Settles O15: the second and third of the five cases of a refusal. -/
theorem reconfigurationIsRefused : Obligations.ReconfigurationIsRefused := by
  intro N F s i reconf
  exact ⟨fun active => execOn_eq_refused.2 (.inr (.inl ⟨rfl, reconf, active⟩)),
    fun inactive small => execOn_eq_refused.2 (.inr (.inr (.inl ⟨rfl, reconf, inactive, small⟩)))⟩

/-- The capacity law is the one clause of a reconfiguration that `SRATE` and `DL.SETSR` share (R112). -/
theorem capacity_of_reconfiguration {i : Instr} {s t : State N} (reconf : i = .srate ∨ i = .dlSetsr)
    (h : execOn F i s = .next t) : t.dl.capacity = (capacityFor F s.config s.audio.val).toNat := by
  rcases reconf with rfl | rfl <;> cases execOn_eq_next.1 h <;> rfl

/-- Settles O40: the capacity is the natural number `⌈rate * MAX_DELAY_SECONDS⌉`, the least one not below. -/
theorem capacityIsTheLeastUpperInteger : Obligations.CapacityIsTheLeastUpperInteger := by
  intro N _ _ _ _ twoPi sin s t i reconf h
  have capacity : t.dl.capacity = ⌈s.audio.val * s.config.maxDelaySeconds⌉₊ := capacity_of_reconfiguration reconf h
  rw [capacity]
  exact ⟨Nat.le_ceil _, fun n above _ => Nat.ceil_le.2 above⟩

/-! ## Cells modulo the capacity (R40) -/

/-- A cell index may be reduced before it is read. -/
theorem memRead_emod (d : DelayLine N) (a : Int) : d.memRead F (a % d.capacity) = d.memRead F a :=
  memRead_congr (by rw [DelayLine.cell, DelayLine.cell, Int.emod_emod])

/-- Two indices name one cell exactly when they are a whole number of capacities apart. -/
theorem cell_eq_iff {d : DelayLine N} (pos : 0 < d.capacity) (a b : Int) :
    d.cell a = d.cell b ↔ a ≡ b [ZMOD d.capacity] := by
  have a0 : 0 ≤ a % (d.capacity : Int) := Int.emod_nonneg a (by omega)
  have b0 : 0 ≤ b % (d.capacity : Int) := Int.emod_nonneg b (by omega)
  rw [DelayLine.cell, DelayLine.cell, Int.ModEq]
  omega

/-! ## A read over an exact format (R104 to R106, R109, R111) -/

/-- What a read delivers depends on the distance through the read position alone. -/
theorem readSample_congr {d : DelayLine N} {q r : N}
    (position : ({ d with readDistance := q } : DelayLine N).readPosition F =
      ({ d with readDistance := r } : DelayLine N).readPosition F) :
    ({ d with readDistance := q } : DelayLine N).readSample F =
      ({ d with readDistance := r } : DelayLine N).readSample F := by
  simp only [DelayLine.readSample, DelayLine.readFraction, DelayLine.newerTap, DelayLine.olderTap, position,
    memRead_setDistance]

section Exact
variable {K : Type} [Field K] [LinearOrder K] [IsStrictOrderedRing K] [FloorRing K] {twoPi : K} {sin : K → K}

/-- A read at `w - d = j + f`, `j` an integer and `f` a fraction: the cells `j` and `j + 1` with the weight `f`. -/
theorem readSample_of_split {d : DelayLine K} (pos : 0 < d.capacity) {j : Int} {f : K} (f0 : 0 ≤ f) (f1 : f < 1)
    (split : (d.writeIndex : K) - d.readDistance = j + f) :
    d.readSample (exactFormat twoPi sin) =
      (1 - f) * d.memRead (exactFormat twoPi sin) j + f * d.memRead (exactFormat twoPi sin) (j + 1) := by
  have size : (0 : Int) < d.capacity := by exact_mod_cast pos
  have turns : (d.writeIndex : K) - d.readDistance =
      (j % (d.capacity : Int) : Int) + f + (j / (d.capacity : Int) : Int) * d.capacity := by
    rw [split]
    conv_lhs => rw [← Int.emod_add_ediv_mul j d.capacity]
    push_cast
    ring
  obtain ⟨older, fraction⟩ := read_split (twoPi := twoPi) (sin := sin) pos (Int.emod_nonneg j size.ne')
    (Int.emod_lt_of_pos j size) f0 f1 turns
  have newer : d.newerTap (exactFormat twoPi sin) = (j + 1) % (d.capacity : Int) := by
    rw [DelayLine.newerTap, older, Int.emod_add_emod]
  rw [DelayLine.readSample, exact_interpolate, older, newer, fraction, memRead_emod, memRead_emod]

/-- A read at distance `k + g` weighs the cells `w - k` and `w - (k + 1)`: `w - d` is `w - k` itself at `g = 0`, and
else the integer `w - (k + 1)` and the fraction `1 - g`. -/
theorem readSample_of_distance {d : DelayLine K} (pos : 0 < d.capacity) {k : Int} {g : K} (g0 : 0 ≤ g) (g1 : g < 1)
    (distance : d.readDistance = k + g) :
    d.readSample (exactFormat twoPi sin) =
      (1 - g) * d.memRead (exactFormat twoPi sin) ((d.writeIndex : Int) - k)
        + g * d.memRead (exactFormat twoPi sin) ((d.writeIndex : Int) - (k + 1)) := by
  rcases g0.eq_or_lt with rfl | g0
  · rw [readSample_of_split (j := d.writeIndex - k) pos le_rfl one_pos (by rw [distance]; push_cast; ring)]
    ring
  · rw [readSample_of_split (j := d.writeIndex - (k + 1)) (f := 1 - g) pos (by linarith) (by linarith)
      (by rw [distance]; push_cast; ring), show (d.writeIndex : Int) - (k + 1) + 1 = d.writeIndex - k by ring]
    ring

/-- A read at an integral distance is exactly one cell. -/
theorem readSample_of_integral {d : DelayLine K} (pos : 0 < d.capacity) {k : Int} (distance : d.readDistance = k) :
    d.readSample (exactFormat twoPi sin) = d.memRead (exactFormat twoPi sin) ((d.writeIndex : Int) - k) := by
  rw [readSample_of_distance pos le_rfl one_pos (by rw [distance, add_zero])]
  ring

/-- Whole capacities in the distance do not move the read position. -/
theorem readPosition_add_mul (d : DelayLine K) (pos : 0 < d.capacity) (r : K) (k : Int) :
    ({ d with readDistance := r + k * d.capacity } : DelayLine K).readPosition (exactFormat twoPi sin) =
      ({ d with readDistance := r } : DelayLine K).readPosition (exactFormat twoPi sin) := by
  have turns := modCap_add_mul (twoPi := twoPi) (sin := sin) ((d.writeIndex : K) - r) pos (-k)
  rw [Int.cast_neg, neg_mul, ← sub_eq_add_neg, sub_sub] at turns
  simpa [DelayLine.readPosition] using turns

end Exact

/-- Settles O34: the position lies in `[0, n)`, so its floor is a cell; the weight is a fractional part; the newer tap
is a remainder. -/
theorem readTapsLieInTheBuffer : Obligations.ReadTapsLieInTheBuffer := by
  rintro N _ _ _ _ twoPi sin F d rfl order
  have pos := order.capacity_pos
  have size : (0 : Int) < d.capacity := by exact_mod_cast pos
  refine ⟨readPosition_nonneg pos, readPosition_lt pos, ?_, olderTap_nonneg pos,
    Int.le_sub_one_of_lt (olderTap_lt pos), Int.emod_nonneg _ size.ne',
    Int.le_sub_one_of_lt (Int.emod_lt_of_pos _ size), ?_, ?_⟩
  · rw [← Int.cast_natCast d.writeIndex]; exact modCap_eq_sub _ _
  · rw [DelayLine.readFraction, exact_fracPart]; exact Int.fract_nonneg _
  · rw [DelayLine.readFraction, exact_fracPart]; exact Int.fract_lt_one _

/-- Settles O35: the effect of `DL.READ` with the sample of `readSample_of_integral`. -/
theorem integralDistanceReadsOneCell : Obligations.IntegralDistanceReadsOneCell := by
  rintro N _ _ _ _ twoPi sin F s k rfl order distance
  rw [execOn_eq_next.2 .dlRead, readSample_of_integral order.capacity_pos distance]; rfl

/-- Settles O36: the effect of `DL.READ` with the sample of `readSample_of_distance`. -/
theorem fractionalDistanceInterpolates : Obligations.FractionalDistanceInterpolates := by
  rintro N _ _ _ _ twoPi sin F s k g rfl order g0 g1 distance
  rw [execOn_eq_next.2 .dlRead, readSample_of_distance order.capacity_pos g0 g1 distance]; rfl

/-- Setting a distance and reading: the two effects, one after the other. -/
theorem readAt_eq (v : N) (s : State N) :
    readAt F v s = .next { s with
      audio.val := v, dl.readDistance := v
      audio.results := s.audio.results ++ [({ s.dl with readDistance := v } : DelayLine N).readSample F] } := by
  rw [readAt, execWith, execOn_eq_next.2 .dlSetd, andThen_next, execOn_eq_next.2 .dlRead]; rfl

/-- Settles O37: the two distances give one read position. -/
theorem distancesWrapAtTheCapacity : Obligations.DistancesWrapAtTheCapacity := by
  rintro N _ _ _ _ twoPi sin F s d k rfl order
  refine ⟨_, readAt_eq d s, ?_⟩
  rw [readAt_eq, readSample_congr (readPosition_add_mul s.dl order.capacity_pos d k)]

/-! ## A written run (R108, R111 a) -/

/-- The sample `k` places behind the write head. `readSample_eq_history` ties it to the model's read. -/
def DelayLine.history (F : NumFormat N) (d : DelayLine N) (k : Nat) : N := d.memRead F ((d.writeIndex : Int) - k)

/-- A read at the integral distance `k` delivers the sample `k` places behind the write head. -/
theorem readSample_eq_history {K : Type} [Field K] [LinearOrder K] [IsStrictOrderedRing K] [FloorRing K]
    {twoPi : K} {sin : K → K} {d : DelayLine K} (pos : 0 < d.capacity) (k : Nat) :
    ({ d with readDistance := (k : K) } : DelayLine K).readSample (exactFormat twoPi sin) =
      d.history (exactFormat twoPi sin) k :=
  readSample_of_integral (d := { d with readDistance := (k : K) }) (k := k) pos (Int.cast_natCast k).symm

/-- A store puts the newest sample at distance 0 and leaves every other distance below the capacity. -/
theorem history_store {d : DelayLine N} (order : DelayLineInv F d) (v : N) {k : Nat} (below : k < d.capacity) :
    (d.store F v).history F k = if k = 0 then v else d.history F k := by
  have head : d.cell ((d.writeIndex : Int) - k) = d.cell d.writeIndex ↔ k = 0 := by
    rw [cell_eq_iff order.capacity_pos, Int.modEq_comm, Int.modEq_iff_dvd, sub_sub_cancel_left, dvd_neg,
      Int.natCast_dvd_natCast]
    exact ⟨fun turns => Nat.eq_zero_of_dvd_of_lt turns below, fun zero => zero ▸ dvd_zero _⟩
  rw [DelayLine.history, store_writeIndex, memRead_store order.memory_wf, if_congr head rfl rfl, DelayLine.history]

/-- A tick moves every sample one place back. -/
theorem history_advance {d : DelayLine N} (k : Nat) : d.advance.history F (k + 1) = d.history F k := by
  rw [DelayLine.history, memRead_advance, advance_writeIndex, DelayLine.history]
  refine memRead_congr ?_
  rw [DelayLine.cell, DelayLine.cell]
  push_cast
  rw [Int.emod_sub_emod, add_sub_add_right_eq_sub]

/-- After a run the newest samples are those of the run, last first; behind them stand the samples from before it. -/
theorem writeRun_history (xs : List N) (x : N) {s : State N} (order : DelayLineInv F s.dl) :
    ∃ t, writeRun F (x :: xs) s = .next t ∧ t.audio.results = s.audio.results ∧ DelayLineInv F t.dl ∧
      ∀ k < s.dl.capacity,
        t.dl.history F k = (x :: xs).reverse[k]?.getD (s.dl.history F (k - xs.length)) := by
  induction xs generalizing x s with
  | nil =>
    refine ⟨_, execOn_eq_next.2 .dlWrite, rfl, store_inv order x, fun k below => ?_⟩
    rw [history_store order x below]
    cases k <;> rfl
  | cons y ys ih =>
    obtain ⟨t, run, results, orderT, samples⟩ :=
      ih y (s := { s with audio.val := x, dl := (s.dl.store F x).advance }) (advance_inv (store_inv order x))
    refine ⟨t, ?_, results, orderT, fun k below => ?_⟩
    · rw [writeRun, execWith, execOn_eq_next.2 .dlWrite, andThen_next, execOn_eq_next.2 .dlTick, andThen_next]
      exact run
    · rw [samples k below, List.reverse_cons (a := x)]
      rcases lt_or_ge k (y :: ys).reverse.length with new | old
      · rw [List.getElem?_append_left new, List.getElem?_eq_getElem new]; rfl
      · obtain ⟨j, rfl⟩ := Nat.exists_eq_add_of_le old
        have after_tick : (y :: ys).reverse.length + j - ys.length = j + 1 := by simp; omega
        have before_run : (y :: ys).reverse.length + j - (y :: ys).length = j := by simp
        rw [List.getElem?_append_right old, List.getElem?_eq_none old, Nat.add_sub_cancel_left, after_tick, before_run,
          Option.getD_none, history_advance, history_store order x (by omega)]
        cases j <;> rfl

/-- Settles O39: the sample at distance `k` of the run's history is the one written `k` writes before the last. -/
theorem writtenRunReadsBack : Obligations.WrittenRunReadsBack := by
  rintro N _ _ _ _ twoPi sin F s xs k x rfl order fits written
  have inside : k < xs.length := by simpa using (List.getElem?_eq_some_iff.1 written).1
  obtain ⟨y, ys, rfl⟩ := List.exists_cons_of_length_pos (Nat.zero_lt_of_lt inside)
  obtain ⟨t, run, results, orderT, samples⟩ := writeRun_history ys y order
  refine ⟨t, _, run, readAt_eq _ t, ?_⟩
  have stored : ({ t.dl with readDistance := (k : N) } : DelayLine N).readSample (exactFormat twoPi sin) = x := by
    rw [readSample_eq_history orderT.capacity_pos, samples k (inside.trans_le fits), written]; rfl
  rw [← results, ← stored]

end Sys2Proof.Machine
end

section
/-! The engine: its state and parameter commands one by one (O12, O13, O16 to O18), the micro-steps of a `FRAME` (O41,
O42), the whole frame (O43, O44), and two frames in a row (O46, O47). -/

namespace Sys2Proof.Machine

variable {N : Type} {F : NumFormat N}

/-! ## State and parameter commands -/

/-- Settles O12: the effects of `ACT` and `DEACT`. -/
theorem actAndDeactWriteTheFlag : Obligations.ActAndDeactWriteTheFlag := by
  intro N F s
  exact ⟨execOn_eq_next.2 .act, execOn_eq_next.2 .deact⟩

/-- Settles O13: the effect of `SRATE` is the refill, after which every cell reads as `0`, and the sample rate. -/
theorem srateReconfiguresBothComponents : Obligations.SrateReconfiguresBothComponents := by
  rintro N F s v n rfl inactive size sized
  have capacity : capacityFor F s.config s.audio.val = n := size.symm
  have reconfigured := execOn_eq_next.2 (Effect.srate (F := F) inactive (by omega))
  rw [capacity, Int.toNat_natCast] at reconfigured
  exact ⟨reconfigured, memRead_refill s.dl n⟩

/-- Settles O16: a capacity of at least 1 makes the product of the rate and `MAX_DELAY_SECONDS` positive, hence the
rate. -/
theorem srateLeavesAPositiveRate : Obligations.SrateLeavesAPositiveRate := by
  intro N _ _ _ _ twoPi sin s t delay h
  cases execOn_eq_next.1 h with
  | srate _ sized =>
    have product : 0 < s.audio.val * s.config.maxDelaySeconds := Int.one_le_ceil_iff.1 sized
    exact (pos_iff_pos_of_mul_pos product).2 delay

/-- Settles O17: the effect of `GETP`, whose value is the parameter of each id. -/
theorem getpDeliversTheParameter : Obligations.GetpDeliversTheParameter := by
  rintro N F s id v (⟨rfl, rfl⟩ | ⟨rfl, rfl⟩ | ⟨rfl, rfl⟩ | ⟨⟨n, rfl⟩, rfl⟩)
  · exact execOn_eq_next.2 (.getp .gain)
  · exact execOn_eq_next.2 (.getp .rate)
  · exact execOn_eq_next.2 (.getp .depth)
  · exact execOn_eq_next.2 (.getp (.unknown n))

/-- Settles O18: the effect of `SETP` at each id. -/
theorem setpStoresAndForwards : Obligations.SetpStoresAndForwards := by
  rintro N F s v rfl
  exact ⟨execOn_eq_next.2 (.setp .gain), execOn_eq_next.2 (.setp .rate), execOn_eq_next.2 (.setp .depth),
    fun n => execOn_eq_next.2 (.setp (.unknown n))⟩

/-! ## The parts of a frame -/

/-- Settles O41: the effect of the acceptance, and the first of the five refusals. -/
theorem frameIsAcceptedOnlyWhileActive : Obligations.FrameIsAcceptedOnlyWhileActive := by
  intro N F s idle
  exact ⟨fun active => execOn_eq_next.2 (.frameAccept idle active),
    fun inactive => execOn_eq_refused.2 (.inl ⟨rfl, rfl, idle, inactive⟩)⟩

/-- Settles O42: the effect of each micro-step, the only waveform being the sine, and the refusal of S6. -/
theorem frameMicroSteps : Obligations.FrameMicroSteps := by
  rintro N F s q wet rfl rfl
  rw [← shape_eq_sin s.osc.waveform]
  exact ⟨fun k => execOn_eq_next.2 (.frameWrite k), fun k => execOn_eq_next.2 (.frameDistance k),
    fun k => execOn_eq_next.2 (.frameRead k), fun k => execOn_eq_next.2 (.frameMix k),
    fun k => execOn_eq_next.2 (.frameSample k), fun k rate => execOn_eq_next.2 (.frameAdvance k rate),
    fun k zero => execOn_eq_refused.2 (.inr (.inr (.inr (.inl ⟨rfl, .inr ⟨rfl, k⟩, zero⟩)))),
    fun k => execOn_eq_next.2 (.frameTick k)⟩

/-! ## The whole frame -/

/-- Settles O43: the frame ends in `frameEnd`, with the sequencer idle as it was and the oscillator of `tick_eq`. -/
theorem frameRunsTheFixedSequence : Obligations.FrameRunsTheFixedSequence := by
  rintro N F s x wet q d idle active rate rfl rfl rfl rfl
  have ticked : (s.osc.resample F).turn F = _ := tick_eq F s.osc
  rw [frame_completes idle active rate, frameEnd, ticked, ← idle]
  rfl

section Exact
variable {K : Type} [Field K] [LinearOrder K] [IsStrictOrderedRing K] [FloorRing K] {twoPi : K} {sin : K → K}

/-- The mixer over an exact format, written out. -/
theorem exact_mix (g x wet : K) : mix (exactFormat twoPi sin) g x wet = 1 / 2 * (x * (1 - g) + wet * g) := rfl

/-- At gain `0` the mixer keeps half the dry sample (R126). -/
@[simp] theorem mix_gain_zero (x wet : K) : mix (exactFormat twoPi sin) 0 x wet = 1 / 2 * x := by
  rw [exact_mix]; ring

/-- At gain `1` it keeps half the wet sample. -/
@[simp] theorem mix_gain_one (x wet : K) : mix (exactFormat twoPi sin) 1 x wet = 1 / 2 * wet := by
  rw [exact_mix]; ring

end Exact

/-- Settles O44: the output of `frameEnd` is the mixer's, at gain `0` and at gain `1`. -/
theorem mixerAtGainZeroAndOne : Obligations.MixerAtGainZeroAndOne := by
  intro N _ _ _ _ twoPi sin s wet idle active rate (read : wet = frameWet (exactFormat twoPi sin) s)
  refine ⟨_, frame_completes idle active rate, fun gain => ?_, fun gain => ?_⟩
  · rw [frameEnd_audio, deliver_results, gain, mix_gain_zero]
  · rw [frameEnd_audio, deliver_results, gain, mix_gain_one, read]

/-! ## Two frames in a row -/

/-- What a whole frame with the input `x` leaves. `wholeFrame_completes` ties it to the model. -/
abbrev afterFrame (F : NumFormat N) (x : N) (s : State N) : State N := frameEnd F { s with audio.val := x }

theorem wholeFrame_completes {s : State N} (x : N) (idle : s.eng.fstep = .idle) (active : s.eng.active = true)
    (rate : s.osc.sampleRate ≠ F.zero) : wholeFrame F x s = .next (afterFrame F x s) :=
  frame_completes (s := { s with audio.val := x }) idle active rate

/-- A frame leaves the engine idle, active and with its sample rate, so that the next one completes. -/
theorem wholeFrame_completes_again {s : State N} (x y : N) (active : s.eng.active = true)
    (rate : s.osc.sampleRate ≠ F.zero) :
    wholeFrame F y (afterFrame F x s) = .next (afterFrame F y (afterFrame F x s)) :=
  wholeFrame_completes y (frameEnd_fstep ..) active rate

section FrameEnd
variable (F) (s : State N)
@[simp] theorem frameEnd_config : (frameEnd F s).config = s.config := rfl
@[simp] theorem frameEnd_readDistance :
    (frameEnd F s).dl.readDistance = F.add s.osc.sample s.config.baseOffset := rfl
end FrameEnd

/-- Settles O46: each frame reads at the cached sample it found, and the first one leaves the sample of its start. -/
theorem modulationLagsOneTick : Obligations.ModulationLagsOneTick := by
  intro N F s x y idle active rate
  exact ⟨_, _, wholeFrame_completes x idle active rate, wholeFrame_completes_again x y active rate, by simp, by simp⟩

/-- A frame keeps the DelayLine in order: its write, its distance and its tick do. -/
theorem frameEnd_inv {s : State N} (order : DelayLineInv F s.dl) : DelayLineInv F (frameEnd F s).dl :=
  setDistance_inv (advance_inv (store_inv order _)) _

/-- A frame leaves its input one place behind the write head. -/
theorem history_frameEnd {s : State N} (order : DelayLineInv F s.dl) :
    (frameEnd F s).dl.history F 1 = s.audio.val :=
  calc (frameEnd F s).dl.history F 1
      = (s.dl.store F s.audio.val).advance.history F 1 := rfl
    _ = (s.dl.store F s.audio.val).history F 0 := history_advance 0
    _ = s.audio.val := by rw [history_store order _ order.capacity_pos, if_pos rfl]

theorem afterFrame_results (x : N) (s : State N) :
    (afterFrame F x s).audio.results =
      s.audio.results ++ [mix F s.eng.gain x (frameWet F { s with audio.val := x })] := rfl

section Exact
variable {K : Type} [Field K] [LinearOrder K] [IsStrictOrderedRing K] [FloorRing K] {twoPi : K} {sin : K → K}
  {s : State K}

/-- At distance 1 a frame reads the sample one place behind the write head, which its own write leaves alone. -/
theorem frameWet_of_distance_one (order : DelayLineInv (exactFormat twoPi sin) s.dl) (two : 2 ≤ s.dl.capacity)
    (distance : s.osc.sample + s.config.baseOffset = 1) :
    frameWet (exactFormat twoPi sin) s = s.dl.history (exactFormat twoPi sin) 1 := by
  have read := readSample_eq_history (d := s.dl.store (exactFormat twoPi sin) s.audio.val) (twoPi := twoPi) (sin := sin)
    order.capacity_pos 1
  rw [Nat.cast_one] at read
  rw [frameWet, exact_add, distance, read, history_store order _ two, if_neg one_ne_zero]

/-- So a frame whose distance is 1 reads the input of the frame before it. -/
theorem frameWet_afterFrame (order : DelayLineInv (exactFormat twoPi sin) s.dl) (two : 2 ≤ s.dl.capacity) (x y : K)
    (distance : s.osc.amplitude * sin s.osc.phase + s.config.baseOffset = 1) :
    frameWet (exactFormat twoPi sin) { afterFrame (exactFormat twoPi sin) x s with audio.val := y } = x :=
  calc frameWet (exactFormat twoPi sin) { afterFrame (exactFormat twoPi sin) x s with audio.val := y }
      = (afterFrame (exactFormat twoPi sin) x s).dl.history (exactFormat twoPi sin) 1 :=
        frameWet_of_distance_one (frameEnd_inv order) two (by simpa using distance)
    _ = x := history_frameEnd (s := { s with audio.val := x }) order

end Exact

/-- Settles O47: the first frame caches the sample `0` again, so that the second reads at distance 1; at gain `1` the
mixer keeps half of what it reads. -/
theorem zeroDepthDelaysByOneFrame : Obligations.ZeroDepthDelaysByOneFrame := by
  rintro N _ _ _ _ twoPi sin F s x y rfl idle active rate order two offset gain amplitude -
  have wet := frameWet_afterFrame order two x y (by rw [amplitude, zero_mul, zero_add, offset])
  refine ⟨_, _, mix (exactFormat twoPi sin) s.eng.gain x (frameWet (exactFormat twoPi sin) { s with audio.val := x }),
    wholeFrame_completes x idle active rate, wholeFrame_completes_again x y active rate, ?_⟩
  rw [afterFrame_results, afterFrame_results, wet, frameEnd_gain, gain, mix_gain_one, mix_gain_one, List.append_assoc,
    List.singleton_append]

end Sys2Proof.Machine
end

section
/-! Where the machine stops (R157): the reasons a command and a step are refused for (O52, O9); and what the commands of
each agent do not see (O57). -/

namespace Sys2Proof.Machine

variable {N : Type} {F : NumFormat N}

/-! ## Refusals -/

/-- Settles O52: the five cases are those of `execOn_eq_refused`, with the capacity law written out. -/
theorem commandsAreRefusedExactlyWhereR157Says : Obligations.CommandsAreRefusedExactlyWhereR157Says := by
  intro N F i s r
  exact execOn_eq_refused

/-- Only AUDIO commands are refused by their meaning. -/
theorem port_of_refused {i : Instr} {s : State N} {r : Refusal} (refused : execOn F i s = .refused r) :
    i.port = .audio := by
  rcases execOn_eq_refused.1 refused with ⟨-, rfl, -⟩ | ⟨-, rfl | rfl, -⟩ | ⟨-, rfl | rfl, -⟩ |
    ⟨-, rfl | ⟨rfl, -⟩, -⟩ | ⟨-, n, rfl⟩ <;> rfl

/-- Inside a frame the one refusal is that of S6 (R127). -/
theorem frame_eq_refused_of_busy {s : State N} {r : Refusal} (busy : s.eng.fstep ≠ .idle) :
    execOn F .frame s = .refused r ↔ r = .divideByZero ∧ s.eng.fstep = .s6 ∧ s.osc.sampleRate = F.zero := by
  simp [execOn_eq_refused, busy]

/-- A command AUDIO takes between frames finds the registers of the state before, and its own operand. -/
theorem execOn_taken_eq_refused {i : Instr} {s : State N} {r : Refusal} {x : Txn N} {more : List (Txn N)}
    {rest : List Agent} (due : Due s .audio x more rest) :
    execOn F i (taken s .audio x more rest) = .refused r ↔
      (r = .frameWhileInactive ∧ i = .frame ∧ s.eng.active = false) ∨
      (r = .reconfigureWhileActive ∧ (i = .srate ∨ i = .dlSetsr) ∧ s.eng.active = true) ∨
      (r = .zeroCapacity ∧ (i = .srate ∨ i = .dlSetsr) ∧ s.eng.active = false ∧
        capacityFor F s.config x.val < 1) ∨
      (r = .divideByZero ∧ i = .oscTick ∧ s.osc.sampleRate = F.zero) ∨
      (r = .reservedWaveform ∧ ∃ n, i = .oscSetw (.reserved n)) := by
  have operand : (taken s .audio x more rest).audio.val = x.val := rfl
  simp [execOn_eq_refused, due.idle rfl, operand]

/-- Where a command taken from a port is refused: it does not decode, is the other port's, or its meaning refuses. -/
theorem issue_eq_refused {ex : Instr → State N → ResultOn N} {a : Agent} {w : Word} {s : State N} {r : Refusal} :
    issue ex a w s = .refused r ↔
      (r = .reservedEncoding ∧ ∃ e, decode w = .error e) ∨
      (r = .wrongPort ∧ ∃ i, decode w = .ok i ∧ i.port ≠ a) ∨
      ∃ i, decode w = .ok i ∧ i.port = a ∧ ex i s = .refused r := by
  rw [issue]
  cases decode w with
  | error e => simp [eq_comm]
  | ok i => by_cases port : i.port = a <;> simp [port, eq_comm (b := r)]

/-- Where a step is refused: in taking a transaction, in the meaning of the command AUDIO takes, or in the S6 of a frame
that goes on. -/
theorem stepOn_eq_refused {s : State N} {r : Refusal} :
    stepOn F s = .refused r ↔
      (r = .reservedEncoding ∧ ∃ a x more rest e, Due s a x more rest ∧ decode x.word = .error e) ∨
      (r = .wrongPort ∧ ∃ a x more rest i, Due s a x more rest ∧ decode x.word = .ok i ∧ i.port ≠ a) ∨
      (∃ x more rest i, Due s .audio x more rest ∧ decode x.word = .ok i ∧
        execOn F i (taken s .audio x more rest) = .refused r) ∨
      (r = .divideByZero ∧ s.eng.fstep = .s6 ∧ s.osc.sampleRate = F.zero ∧
        (s.schedule = [] ∨ ∃ rest, s.schedule = .audio :: rest)) := by
  constructor
  · intro h
    rcases stepOn_cases F s with ⟨-, -, step⟩ | ⟨quiet, busy, step⟩ | ⟨rest, turn, busy, step⟩ |
      ⟨a, rest, -, -, -, step⟩ | ⟨a, x, more, rest, due, step⟩ <;> rw [step] at h
    · cases h
    · obtain ⟨reason, s6, zero⟩ := (frame_eq_refused_of_busy busy).1 h
      exact .inr (.inr (.inr ⟨reason, s6, zero, .inl quiet⟩))
    · obtain ⟨reason, s6, zero⟩ := (frame_eq_refused_of_busy (s := { s with schedule := rest }) busy).1 h
      exact .inr (.inr (.inr ⟨reason, s6, zero, .inr ⟨rest, turn⟩⟩))
    · cases h
    · rcases issue_eq_refused.1 h with ⟨reason, e, error⟩ | ⟨reason, i, decoded, port⟩ | ⟨i, decoded, rfl, refused⟩
      · exact .inl ⟨reason, a, x, more, rest, e, due, error⟩
      · exact .inr (.inl ⟨reason, a, x, more, rest, i, due, decoded, port⟩)
      · rw [port_of_refused refused] at due refused
        exact .inr (.inr (.inl ⟨x, more, rest, i, due, decoded, refused⟩))
  · rintro (⟨rfl, a, x, more, rest, e, due, error⟩ | ⟨rfl, a, x, more, rest, i, due, decoded, port⟩ |
      ⟨x, more, rest, i, due, decoded, refused⟩ | ⟨rfl, s6, zero, turn⟩)
    · rw [stepOn_due due, issue_of_error _ _ error]
    · rw [stepOn_due due, issue_of_wrong_port _ decoded port]
    · rw [stepOn_due due, issue_of_decode _ decoded (port_of_refused refused), refused]
    · have busy : s.eng.fstep ≠ .idle := by simp [s6]
      rcases turn with quiet | ⟨rest, turn⟩
      · exact (stepOn_no_turn busy quiet).trans ((frame_eq_refused_of_busy busy).2 ⟨rfl, s6, zero⟩)
      · exact (stepOn_audio_turn busy turn).trans
          ((frame_eq_refused_of_busy (s := { s with schedule := rest }) busy).2 ⟨rfl, s6, zero⟩)

/-- Settles O9: the cases of `stepOn_eq_refused`, with the refusals of the command AUDIO takes written out. -/
theorem stepRefusesOnlyForTheReasonsOfR157 : Obligations.StepRefusesOnlyForTheReasonsOfR157 := by
  intro N F s
  refine ⟨next_or_refused _, fun r => stepOn_eq_refused.trans (or_congr_right (or_congr_right (or_congr_left ?_)))⟩
  exact exists_congr fun x => exists_congr fun more => exists_congr fun rest => exists_congr fun i =>
    and_congr_right fun due => and_congr_right' (execOn_taken_eq_refused due)

/-! ## What an agent does not see (R159) -/

/-- A change of the state that a command neither meets nor undoes comes out of it as it went in: the next states
correspond, and no refusal goes away. -/
theorem execOn_eq_mapNext {i : Instr} {s : State N} {f : State N → State N}
    (completes : ∀ t, Effect F s i t → Effect F (f s) i (f t))
    (stops : ∀ r, execOn F i s = .refused r → execOn F i (f s) = .refused r) :
    execOn F i (f s) = mapNext f (execOn F i s) := by
  rcases next_or_refused (execOn F i s) with ⟨t, h⟩ | ⟨r, h⟩
  · rw [h, execOn_eq_next.2 (completes t (execOn_eq_next.1 h))]; rfl
  · rw [h, stops r h]; rfl

/-- The parameter registers changed, each by its own function. `execOn_mapParams` ties it to the model. -/
def State.mapParams (gain rate depth : N → N) (s : State N) : State N :=
  { s with eng.gain := gain s.eng.gain, eng.rate := rate s.eng.rate, eng.depth := depth s.eng.depth }

/-- An AUDIO command has the same effect whatever the parameters hold; the mixer of S4 alone reads one, the gain. -/
theorem Effect.mapParams {i : Instr} {s t : State N} (effect : Effect F s i t) {gain : N → N} (rate depth : N → N)
    (audio : i.port = .audio) (read : i = .frame → gain = id) :
    Effect F (s.mapParams gain rate depth) i (t.mapParams gain rate depth) := by
  cases effect with
  | getp | setp => cases audio
  | act | deact | oscSetsr | oscSetf | oscSeta | oscSetw | oscGet | dlWrite | dlSetd | dlRead | dlTick => constructor
  | srate inactive sized => exact .srate inactive sized
  | dlSetsr inactive sized => exact .dlSetsr inactive sized
  | oscTick nonzero => exact .oscTick nonzero
  | frameAccept k active => exact .frameAccept k active
  | frameWrite k => exact .frameWrite k
  | frameDistance k => exact .frameDistance k
  | frameRead k => exact .frameRead k
  | frameMix k => obtain rfl := read rfl; exact .frameMix k
  | frameSample k => exact .frameSample k
  | frameAdvance k nonzero => exact .frameAdvance k nonzero
  | frameTick k => exact .frameTick k

/-- So AUDIO sees no parameter but the gain in `FRAME`: no refusal depends on one. -/
theorem execOn_mapParams {i : Instr} {s : State N} {gain : N → N} (rate depth : N → N)
    (audio : i.port = .audio) (read : i = .frame → gain = id) :
    execOn F i (s.mapParams gain rate depth) = mapNext (State.mapParams gain rate depth) (execOn F i s) :=
  execOn_eq_mapNext (fun _ effect => effect.mapParams rate depth audio read)
    fun _ refused => execOn_eq_refused.2 (execOn_eq_refused (s := s).1 refused)

/-- A parameter is read from the engine registers. -/
theorem readParam_set_osc_dl (id : ParamId) (s : State N) (o : Oscillator N) (d : DelayLine N) :
    readParam F id { s with osc := o, dl := d } = readParam F id s := by cases id <;> rfl

/-- What a store leaves in the engine registers does not depend on the components it forwards to. -/
theorem writeParam_set_osc_dl_eng (id : ParamId) (v : N) (s : State N) (o : Oscillator N) (d : DelayLine N) :
    (writeParam id v { s with osc := o, dl := d }).eng = (writeParam id v s).eng := by cases id <;> rfl

/-- Settles O57: the AUDIO part is `execOn_mapParams` with one of the registers kept; `GETP` and `SETP` use the engine
registers and their port alone. -/
theorem agentsSeeOnlyTheirOwnRegisters : Obligations.AgentsSeeOnlyTheirOwnRegisters := by
  intro N F
  refine ⟨fun i s r d audio => ?_, fun i s g audio other => ?_, fun i s o d control => ?_⟩
  · exact execOn_mapParams (gain := id) (fun _ => r) (fun _ => d) audio fun _ => rfl
  · exact execOn_mapParams (gain := fun _ => g) id id audio fun frame => absurd frame other
  · cases i with
    | getp id =>
      exact ⟨_, _, execOn_eq_next.2 (.getp id), execOn_eq_next.2 (.getp id), rfl, by simp [readParam_set_osc_dl],
        rfl, rfl⟩
    | setp id =>
      exact ⟨_, _, execOn_eq_next.2 (.setp id), execOn_eq_next.2 (.setp id), writeParam_set_osc_dl_eng .., by simp,
        by simp, by simp⟩
    | _ => cases control

end Sys2Proof.Machine
end

section
/-! Between frames and around one: an idle block waits for commands (O8); a frame is its direct commands in a row
(O45); and the host's sizing keeps the distance a frame sets inside true history (O49). -/

namespace Sys2Proof.Machine

variable {N : Type} {F : NumFormat N}

/-! ## Waiting for commands (R171) -/

/-- With no turn left and no frame in progress, a step changes nothing. -/
theorem stepOn_waits {s : State N} (quiet : s.schedule = []) (idle : s.eng.fstep = .idle) :
    stepOn F s = .next s := by
  rcases stepOn_cases F s with ⟨-, -, step⟩ | ⟨-, busy, -⟩ | ⟨rest, turn, -⟩ | ⟨a, rest, turn, -⟩ |
    ⟨a, x, more, rest, due, -⟩
  · exact step
  · exact absurd idle busy
  · cases quiet.symm.trans turn
  · cases quiet.symm.trans turn
  · cases quiet.symm.trans due.turn

/-- The turn of an agent that may act and has nothing on its port is used up, and changes nothing else. -/
theorem stepOn_passes {s : State N} {a : Agent} {rest : List Agent} (turn : s.schedule = a :: rest)
    (empty : (s.port a).pending = []) (free : a = .audio → s.eng.fstep = .idle) :
    stepOn F s = .next { s with schedule := rest } := by
  rcases stepOn_cases F s with ⟨quiet, -⟩ | ⟨quiet, -⟩ | ⟨rest', turn', busy, -⟩ | ⟨a', rest', turn', -, -, step⟩ |
    ⟨a', x, more, rest', due, -⟩
  · cases quiet.symm.trans turn
  · cases quiet.symm.trans turn
  · cases turn.symm.trans turn'
    exact absurd (free rfl) busy
  · cases turn.symm.trans turn'
    exact step
  · cases turn.symm.trans due.turn
    cases empty.symm.trans due.pending

/-- Settles O8: reset leaves the schedule empty and the sequencer idle. -/
theorem blockWaitsForCommands : Obligations.BlockWaitsForCommands := by
  intro N F
  exact ⟨fun c => stepOn_waits rfl rfl, fun s quiet idle => stepOn_waits quiet idle,
    fun s a rest turn empty free => stepOn_passes turn empty free⟩

/-! ## A frame from the direct commands (R178) -/

theorem lastResult_of_results {s : State N} {earlier : List N} {r : N} (results : s.audio.results = earlier ++ [r]) :
    lastResult F s = r := by
  rw [lastResult, results, List.getLastD_concat]

/-- The direct commands leave the oscillator and the DelayLine of a whole frame, and deliver the sample it modulates by
and the sample it reads; the operand left on the port is the distance they set. -/
theorem directFrame_completes {s : State N} (rate : s.osc.sampleRate ≠ F.zero) :
    directFrame F s.audio.val s = .next { s with
      osc := (frameEnd F s).osc, dl := (frameEnd F s).dl
      audio.val := F.add s.osc.sample s.config.baseOffset
      audio.results := s.audio.results ++ [s.osc.sample] ++ [frameWet F s] } := by
  refine andThen_eq_next.2 ⟨_, execOn_eq_next.2 .dlWrite, andThen_eq_next.2 ⟨_, execOn_eq_next.2 .oscGet, ?_⟩⟩
  rw [lastResult_of_results (deliver_results ..)]
  exact andThen_eq_next.2 ⟨_, execOn_eq_next.2 .dlSetd, andThen_eq_next.2 ⟨_, execOn_eq_next.2 .dlRead,
    andThen_eq_next.2 ⟨_, execOn_eq_next.2 (.oscTick rate), execOn_eq_next.2 .dlTick⟩⟩⟩

/-- Settles O45: the frame ends in `frameEnd` and the direct commands in the state of `directFrame_completes`, whose last
result is the sample the frame reads. -/
theorem directCommandsReproduceTheFrame : Obligations.DirectCommandsReproduceTheFrame := by
  intro N F s idle active rate
  refine ⟨_, _, frame_completes idle active rate, directFrame_completes rate, rfl, rfl, ?_, ?_⟩
  · rw [lastResult_of_results rfl]; rfl
  · rw [lastResult_of_results rfl]; exact List.append_assoc ..

/-! ## The sizing of R176 -/

section Exact
variable {K : Type} [Field K] [LinearOrder K] [IsStrictOrderedRing K] [FloorRing K] {twoPi : K} {sin : K → K}

theorem exact_sizedFor {s : State K} {D : K} :
    SizedFor (exactFormat twoPi sin) s D ↔
      s.config.baseOffset + D ≤ s.dl.capacity - 1 ∧ D ≤ s.config.baseOffset := by
  simp [SizedFor]

theorem exact_distanceInHistory {s : State K} :
    DistanceInHistory (exactFormat twoPi sin) s ↔
      0 ≤ s.dl.readDistance ∧ s.dl.readDistance ≤ s.dl.capacity - 1 := by
  simp [DistanceInHistory]

end Exact

/-- Settles O49: the effect of S2 sets `sample + BASE_OFFSET`, which is at least `BASE_OFFSET - D` and at most
`BASE_OFFSET + D`. -/
theorem sizedFramesReadTrueHistory : Obligations.SizedFramesReadTrueHistory := by
  rintro N _ _ _ _ twoPi sin F s D rfl sized within at_s2
  obtain ⟨upper, lower⟩ := exact_sizedFor.1 sized
  obtain ⟨below, above⟩ := abs_le.1 within
  refine ⟨_, execOn_eq_next.2 (.frameDistance at_s2), exact_distanceInHistory.2 ?_⟩
  rw [setFStep_dl, frameDistance_readDistance, frameDistance_capacity, exact_add]
  constructor <;> linarith

end Sys2Proof.Machine
end
